-- ==== Sys2Proof/Word.lean ====
section
/-! DEFINITION. The word types of the Open8: 8-bit data and 16-bit addresses (R1, R5, R20, R27). -/

namespace Sys2Proof

/-- A byte: a general register, PSR, the interrupt mask register, one memory location (R20, R24, R26, R27). -/
abbrev Byte := BitVec 8

/-- A 16-bit address: the program counter, STACK, a register pair used as a pointer (R21, R23, R25). -/
abbrev Addr := BitVec 16

end Sys2Proof
end

