-- ==== Sys2Proof/Machine/Bits.lean ====
section
/-! DEFINITION. Bit-field, extension and byte-order helpers (R6, R8, R9): the pure functions on bit vectors that the
decoder and the meanings share. -/

namespace Sys2Proof.Machine

/-- `hi8(v) = v[15:8]` (R9). -/
def hi8 (v : Addr) : Byte := v.extractLsb' 8 8

/-- `lo8(v) = v[7:0]` (R9). -/
def lo8 (v : Addr) : Byte := v.extractLsb' 0 8

/-- `hi : lo`, the 16-bit value whose low byte lies at the lower address (R8, R51). -/
def word16 (hi lo : Byte) : Addr := hi ++ lo

/-- `sext_16` of a signed offset (R85). -/
def signExtend16 (o : Byte) : Addr := o.signExtend 16

/-- `zext_16` of an unsigned offset (R86). -/
def zeroExtend16 (u : Byte) : Addr := u.setWidth 16

/-- A Bool as a number 0 or 1, for an addend of one bit (R9, R199). -/
def bit16 (b : Bool) : Addr := if b then 1 else 0

/-- Bits 7:3 of the first instruction byte (R80). -/
def opcodeField (b : Byte) : BitVec 5 := b.extractLsb' 3 5

/-- Bits 2:0 of the first instruction byte (R80). -/
def subopField (b : Byte) : BitVec 3 := b.extractLsb' 0 3

/-- A first byte from its two fields (R80). -/
def firstByte (opcode : BitVec 5) (subop : BitVec 3) : Byte := opcode ++ subop

end Sys2Proof.Machine
end

