-- ==== Sys2Proof/Config.lean ====
section
/-! DEFINITION. What the implementation of an Open8 fixes (R5) and the free values no rule of the spec fixes.
A configuration is plain data, fixed for a machine: no instruction reads it into a register or writes it (R28), and
every statement about a state speaks about every configuration. -/

namespace Sys2Proof

/-- How wide the two's complement in the source's "(-Rn)" is (R5 `SUB_NEG_WIDTH`, decision D5). -/
inductive NegWidth where
  /-- `neg8`: an 8-bit two's complement, zero-extended to the 9-bit sum (the spec's choice). -/
  | eight
  /-- A 9-bit two's complement: the carry out is then a borrow. -/
  | nine
deriving DecidableEq, Repr

/-- How SBC uses the carry flag (R120 (a), conflict C3, decision D6). -/
inductive SbcCarry where
  /-- The Operation line: the carry is added (the spec's choice). -/
  | added
  /-- The title and the Description: the carry is subtracted. -/
  | subtracted
deriving DecidableEq, Repr

/-- What stands behind an address (R5 `MEM_MAP`, R57, U13). -/
inductive RegionKind where
  /-- Plain read/write memory: the default for every address. -/
  | plain
  /-- Memory that is read like plain memory and that no store may change. -/
  | readOnly
  /-- A device register: a read answers a free value, a write leaves no trace in the state. -/
  | device
  /-- Nothing: every access is refused. -/
  | absent
deriving DecidableEq, Repr

/-- One entry of `MEM_MAP`: the addresses `base` to `base + size - 1` are of kind `kind`. -/
structure Region where
  base : Nat
  size : Nat
  kind : RegionKind
deriving DecidableEq, Repr

/-- The implementation parameters of R5. -/
structure Config where
  /-- `ALLOW_STACK_ADDRESS_MOVE` (R164, D18). -/
  allowStackAddressMove : Bool
  /-- `AUTO_INCREMENT` (R200, D10). -/
  autoIncrement : Bool
  /-- `VECTOR_BASE` (R254, D17). -/
  vectorBase : Addr
  /-- `RESET_PC` (R281, D16). -/
  resetPc : Addr
  /-- `RESET_IMR`, of which bit 0 reads as 1 (R280, D16). -/
  resetImr : Byte
  /-- `MEM_MAP`: the first entry that holds an address decides, and an address no entry holds is plain (R57, D19). -/
  memMap : List Region
  /-- `INT_RETURN_OFFSET` (R160 point 2, D7). -/
  intReturnOffset : BitVec 1
  /-- `SUB_NEG_WIDTH` (R120 (b), R126, D5). -/
  subNegWidth : NegWidth
  /-- Whether SBC adds or subtracts the carry (R120 (a), D6). -/
  sbcCarry : SbcCarry
  /-- `EXT_INTERRUPTS` (R256, R257, D12). -/
  extInterrupts : Bool
deriving DecidableEq, Repr

/-- The machine instance that `State.reset` is built with: the parameters the spec's own test vectors state
(95_test_vectors.md, conventions), and the defaults of R5. DESIGN CHOICE (log entry 1): the spec leaves
`VECTOR_BASE`, `RESET_PC`, `RESET_IMR`, `ALLOW_STACK_ADDRESS_MOVE` and `AUTO_INCREMENT` open. Unsafe. -/
def Config.default : Config where
  allowStackAddressMove := true
  autoIncrement := true
  vectorBase := 0xFFF0
  resetPc := 0x0100
  resetImr := 0x01
  memMap := []
  intReturnOffset := 1
  subNegWidth := .eight
  sbcCarry := .added
  extInterrupts := false

/-- FREE VALUE (log entry 7): the byte a device answers at its k-th read (R57, U13 "device reads: any value from an
oracle"). It has no body, so no proof can see it. -/
opaque Config.freeByte : Nat → Byte

/-- FREE VALUE (log entry 9): the carry after SBC under the reading that subtracts the carry, as a function of R0, Rn
and the old carry. R120 asks for that reading to be expressible and states no carry for it. -/
opaque Config.freeSbcCarry : Byte → Byte → Bool → Bool

end Sys2Proof
end

