-- ==== Sys2Proof/Machine/Memory.lean ====
section
/-! DEFINITION. The 64K byte address space as plain data (R27, R57): a list of (address, byte) pairs with addresses
strictly rising, and the set of addresses a program has stored to, as a strictly rising list (R62). An address no pair
lists holds no value (R66, log entry 5). -/

namespace Sys2Proof.Machine

/-- The number of memory locations (R27). -/
def addressSpace : Nat := 65536

/-- The byte listed at an address, if there is one. -/
def Memory.lookup (m : List Host.Cell) (a : Nat) : Option Byte :=
  match m with
  | [] => none
  | c :: rest => if c.1 = a then some c.2 else Memory.lookup rest a

/-- The memory with the byte `v` at address `a`, every other address as before. -/
def Memory.insert (m : List Host.Cell) (a : Nat) (v : Byte) : List Host.Cell :=
  match m with
  | [] => [(a, v)]
  | c :: rest =>
    if a < c.1 then (a, v) :: c :: rest
    else if c.1 = a then (a, v) :: rest
    else c :: Memory.insert rest a v

/-- Every address of the list is at least `lo` and inside the address space, and the addresses rise strictly. -/
def Memory.risingFrom (lo : Nat) (m : List Host.Cell) : Bool :=
  match m with
  | [] => true
  | c :: rest => decide (lo ≤ c.1) && decide (c.1 < addressSpace) && Memory.risingFrom (c.1 + 1) rest

/-- The canonical form of a memory. -/
def Memory.wf (m : List Host.Cell) : Bool := Memory.risingFrom 0 m

/-- A memory image: each cell of `image` stored in turn, an address outside the address space left out. -/
def Memory.ofImage (image : List Host.Cell) : List Host.Cell :=
  image.foldl (fun m c => if c.1 < addressSpace then Memory.insert m c.1 c.2 else m) []

/-- Whether an address is in a set of addresses. -/
def AddressSet.has (l : List Nat) (a : Nat) : Bool :=
  match l with
  | [] => false
  | b :: rest => if b = a then true else AddressSet.has rest a

/-- The set of addresses with `a` in it. -/
def AddressSet.insert (l : List Nat) (a : Nat) : List Nat :=
  match l with
  | [] => [a]
  | b :: rest =>
    if a < b then a :: b :: rest
    else if b = a then b :: rest
    else b :: AddressSet.insert rest a

/-- The set of addresses without `a`. -/
def AddressSet.remove (l : List Nat) (a : Nat) : List Nat :=
  match l with
  | [] => []
  | b :: rest => if b = a then AddressSet.remove rest a else b :: AddressSet.remove rest a

/-- Every address of the set is at least `lo` and inside the address space, and the addresses rise strictly. -/
def AddressSet.risingFrom (lo : Nat) (l : List Nat) : Bool :=
  match l with
  | [] => true
  | b :: rest => decide (lo ≤ b) && decide (b < addressSpace) && AddressSet.risingFrom (b + 1) rest

/-- The canonical form of a set of addresses. -/
def AddressSet.wf (l : List Nat) : Bool := AddressSet.risingFrom 0 l

/-- What stands behind an address: the first entry of `MEM_MAP` that holds it, else plain memory (R57). -/
def regionKind (map : List Region) (a : Nat) : RegionKind :=
  match map with
  | [] => .plain
  | r :: rest => if r.base ≤ a ∧ a < r.base + r.size then r.kind else regionKind rest a

end Sys2Proof.Machine
end

