-- ==== Sys2Proof/Syntax.lean ====
section
/-! DEFINITION. The instructions of the Open8: one constructor for each of the 62 rows of the opcode table (R98):
39 hardware instructions, the unassigned bytes, and the 22 pseudo-mnemonics of the assembler (R106, R220). -/

namespace Sys2Proof

/-- A general register R0..R7; R0 is the accumulator (R20, R82). -/
inductive Reg where
  | r0 | r1 | r2 | r3 | r4 | r5 | r6 | r7
deriving DecidableEq, Repr

/-- A register pair, named by its even register Re: `p0` is R1:R0, and so on up to `p6`, which is R7:R6 (R21, R84). -/
inductive Pair where
  | p0 | p2 | p4 | p6
deriving DecidableEq, Repr

/-- A number 0..7: the index of a bit of PSR or R0, or an interrupt number (R83). -/
abbrev BitIndex := Fin 8

/-- An instruction. Offsets are the encoded bytes (R85, R86), addresses the 16-bit operand, `a` the A field (R84). -/
inductive Instr where
  | inc (n : Reg)
  | adc (n : Reg)
  | tx0 (n : Reg)
  | or (n : Reg)
  | and (n : Reg)
  | xor (n : Reg)
  | rol (n : Reg)
  | ror (n : Reg)
  | dec (n : Reg)
  | sbc (n : Reg)
  | add (n : Reg)
  | stp (n : BitIndex)
  | btt (n : BitIndex)
  | clp (n : BitIndex)
  | t0x (n : Reg)
  | cmp (n : Reg)
  | psh (n : Reg)
  | pop (n : Reg)
  | br0 (n : BitIndex) (offset : Byte)
  | br1 (n : BitIndex) (offset : Byte)
  | dbnz (n : Reg) (offset : Byte)
  | int (n : BitIndex)
  | mul (n : Reg)
  | rsp
  | rts
  | rti
  | brk
  | jmp (addr : Addr)
  | smsk
  | gmsk
  | jsr (addr : Addr)
  | upp (e : Pair)
  /-- First byte 0xC1, 0xC3, 0xC5 or 0xC7: no instruction (R95, R191). -/
  | unassigned (e : Pair)
  | sta (n : Reg) (addr : Addr)
  | stx (e : Pair) (a : Bool)
  | sto (e : Pair) (a : Bool) (offset : Byte)
  | ldi (n : Reg) (imm : Byte)
  | lda (n : Reg) (addr : Addr)
  | ldx (e : Pair) (a : Bool)
  | ldo (e : Pair) (a : Bool) (offset : Byte)
  | sti
  | cli
  | stz
  | clz
  | stn
  | cln
  | stc
  | clc
  | nop
  | brz (offset : Byte)
  | brnz (offset : Byte)
  | brlz (offset : Byte)
  | brgez (offset : Byte)
  | brc (offset : Byte)
  | brnc (offset : Byte)
  | jmpz (addr : Addr)
  | jmpnz (addr : Addr)
  | jmplz (addr : Addr)
  | jmpgez (addr : Addr)
  | jmpc (addr : Addr)
  | jmpnc (addr : Addr)
  | clr
deriving DecidableEq, Repr

end Sys2Proof
end

