-- ==== Sys2Proof/Machine/State.lean ====
section
/-! DEFINITION. The architectural state (10_state.md: `x[0..7]`, `pc`, `psr`, `sp`, `imr`, `mem`, nothing else), the
machine instance's configuration and inputs beside it, the reasons a step can stop, and the state after reset. -/

namespace Sys2Proof.Machine

/-- The eight general registers, 8 bits each (R20). There is one register file only (R32). -/
structure Regs where
  r0 : Byte
  r1 : Byte
  r2 : Byte
  r3 : Byte
  r4 : Byte
  r5 : Byte
  r6 : Byte
  r7 : Byte
deriving DecidableEq, Repr

/-- The whole machine, plain data. -/
structure State where
  /-- The machine instance's parameters (R5, R28). Constant: no step writes it. -/
  cfg : Config
  /-- R0..R7 (R20). -/
  regs : Regs
  /-- PROGRAM COUNTER: the address of the first byte of the instruction being executed (R23). -/
  pc : Addr
  /-- PSR: Z, C, N, I, GP1..GP4 in bits 0..7 (R24). -/
  psr : Byte
  /-- STACK, the stack pointer (R25). -/
  sp : Addr
  /-- INTERRUPT_MASK_REGISTER (R26). -/
  imr : Byte
  /-- The bytes of the address space that hold a value (R27, R66), in the canonical form `Memory.wf`. -/
  mem : List Host.Cell
  /-- The addresses the program has stored to (R62), in the canonical form `AddressSet.wf`. The model's own field. -/
  stored : List Nat
  /-- The oracle of external requests (R257): the k-th byte is the set of numbers requested before the k-th step from
  here, bit n for interrupt n; after the list, none. Looked at only with `EXT_INTERRUPTS`. The model's own field. -/
  requests : List Byte
  /-- How many free values have been used (log entry 7). The model's own field. -/
  freeCount : Nat
deriving DecidableEq, Repr

/-- A run that the model stops although the hardware has no fault (R250). -/
inductive Fault where
  /-- A byte that nothing has written was read, as data or as an instruction byte (R66, D27, U5). Raised by every memory
  read. Safe: the hardware reads some byte and goes on. -/
  | unwrittenByte (a : Addr)
deriving DecidableEq, Repr

/-- A situation the spec gives no meaning (`ModelRefusal`, R8, R250). -/
inductive Refusal where
  /-- No meaning written yet for the instruction. No arm of `exec` answers with it. Safe. -/
  | notModelled (mnemonic : String)
  /-- The first byte is 0xC1, 0xC3, 0xC5 or 0xC7 (R95, R191, D9, U1). Raised by executing it. Safe. -/
  | unassignedOpcode
  /-- An auto-increment form on a core built without the option (R200, D10, U3). Raised by STX, STO, LDX and LDO with
  A = 1. Safe. -/
  | autoincrementNotImplemented
  /-- An instruction byte is fetched from an address the program has stored to (R62, D21, U8). Raised by the fetch.
  Safe. -/
  | fetchOfModifiedByte (a : Addr)
  /-- An access to an address with nothing behind it (R57, U13). Raised by every read and write. Safe. -/
  | absentAddress (a : Addr)
  /-- A store to an address declared read-only, of which the spec says no more (R57; log entry 16). Raised by every
  write. Safe. -/
  | readOnlyAddress (a : Addr)
deriving DecidableEq, Repr

/-- Why an operation did not finish. -/
inductive Halt where
  | fault (f : Fault)
  | refusal (r : Refusal)
deriving DecidableEq, Repr

/-- What executing an instruction answers. -/
abbrev Result := Host.Outcome State Fault Refusal

/-- The state right after reset of a machine instance (R280): STACK at its default 0x007F, bit 0 of the mask register 1
and the others from `RESET_IMR`, the program counter at `RESET_PC`, the bytes of `MEM_INIT` in memory and no other
byte. The registers and PSR are unspecified there, so they are arguments, as are the inputs. -/
def State.resetWith (cfg : Config) (image : List Host.Cell) (regs : Regs) (psr : Byte) (requests : List Byte) : State where
  cfg := cfg
  regs := regs
  pc := cfg.resetPc
  psr := psr
  sp := 0x007F
  imr := cfg.resetImr ||| 1
  mem := Memory.ofImage image
  stored := []
  requests := requests
  freeCount := 0

/-- The value of R0..R7 that the model names for reset. DESIGN CHOICE (log entry 2): the spec gives none. Unsafe. -/
def Regs.zero : Regs := ⟨0, 0, 0, 0, 0, 0, 0, 0⟩

/-- The machine right after reset: the instance `Config.default` with no image loaded, R0..R7 and PSR zero. DESIGN
CHOICE (log entries 1 and 2). Unsafe. -/
def State.reset : State := State.resetWith Config.default [] Regs.zero 0 []

end Sys2Proof.Machine
end

