-- ==== Sys2Proof/Machine/Operands.lean ====
section
/-! DEFINITION. Registers, register pairs, and the addresses the operand forms name (R8, R9, R20, R21, R85, R86). -/

namespace Sys2Proof.Machine

/-- Reads a register of the file (R20). -/
def Regs.get (x : Regs) (n : Reg) : Byte :=
  match n with
  | .r0 => x.r0
  | .r1 => x.r1
  | .r2 => x.r2
  | .r3 => x.r3
  | .r4 => x.r4
  | .r5 => x.r5
  | .r6 => x.r6
  | .r7 => x.r7

/-- Writes a register of the file; no register is hardwired (R20). -/
def Regs.set (x : Regs) (n : Reg) (v : Byte) : Regs :=
  match n with
  | .r0 => { x with r0 := v }
  | .r1 => { x with r1 := v }
  | .r2 => { x with r2 := v }
  | .r3 => { x with r3 := v }
  | .r4 => { x with r4 := v }
  | .r5 => { x with r5 := v }
  | .r6 => { x with r6 := v }
  | .r7 => { x with r7 := v }

/-- `x[n]` (R8). -/
def State.reg (s : State) (n : Reg) : Byte := s.regs.get n

/-- `x[n] <- v` (R8). -/
def State.setReg (s : State) (n : Reg) (v : Byte) : State := { s with regs := s.regs.set n v }

/-- `pc <- v` (R8). -/
def State.setPc (s : State) (v : Addr) : State := { s with pc := v }

/-- `sp <- v` (R8). -/
def State.setSp (s : State) (v : Addr) : State := { s with sp := v }

/-- `psr <- v` (R8). -/
def State.setPsr (s : State) (v : Byte) : State := { s with psr := v }

/-- The interrupt mask register written with `v`, whose bit 0 is always set to 1 (R26, R169). -/
def State.setImr (s : State) (v : Byte) : State := { s with imr := v ||| 1 }

/-- `pc <- (pc + k) mod 2^16`: to the next instruction (R23, D2). -/
def State.advance (s : State) (k : Addr) : State := s.setPc (s.pc + k)

/-- Re, the even register of a pair: the low byte (R21). -/
def evenReg : Pair → Reg
  | .p0 => .r0
  | .p2 => .r2
  | .p4 => .r4
  | .p6 => .r6

/-- R(e+1), the odd register of a pair: the high byte (R21). -/
def oddReg : Pair → Reg
  | .p0 => .r1
  | .p2 => .r3
  | .p4 => .r5
  | .p6 => .r7

/-- `pair(e) = x[e+1] : x[e]` (R9). -/
def State.pair (s : State) (e : Pair) : Addr := word16 (s.reg (oddReg e)) (s.reg (evenReg e))

/-- `pair(e) <- v` (R9). -/
def State.setPair (s : State) (e : Pair) (v : Addr) : State :=
  (s.setReg (evenReg e) (lo8 v)).setReg (oddReg e) (hi8 v)

/-- `pair(e) <- (pair(e) + A) mod 2^16`; no flag changes (R199, D4). -/
def State.bumpPair (s : State) (e : Pair) (a : Bool) : State := s.setPair e (s.pair e + bit16 a)

/-- The effective address of STX and LDX (R193, R197). -/
def State.indexedAddr (s : State) (e : Pair) : Addr := s.pair e

/-- The effective address of STO and LDO, `(pair(e) + zext_16(offset)) mod 2^16` (R194, R198, D4). -/
def State.offsetAddr (s : State) (e : Pair) (offset : Byte) : Addr := s.pair e + zeroExtend16 offset

/-- The target of a taken branch, from the branch's own address (R90, R145). -/
def State.branchTarget (s : State) (offset : Byte) : Addr := s.pc + signExtend16 offset

/-- The address of the low byte of vector n, `(VECTOR_BASE + 2n) mod 2^16` (R254). -/
def State.vectorAddr (s : State) (n : BitIndex) : Addr := s.cfg.vectorBase + BitVec.ofNat 16 (2 * n.val)

/-- The byte memory holds at an address, if any has been written there (R66). -/
def State.byteAt (s : State) (a : Addr) : Option Byte := Memory.lookup s.mem a.toNat

/-- What stands behind an address (R57). -/
def State.kindAt (s : State) (a : Addr) : RegionKind := regionKind s.cfg.memMap a.toNat

/-- Whether the program has stored to an address (R62). -/
def State.modified (s : State) (a : Addr) : Bool := AddressSet.has s.stored a.toNat

end Sys2Proof.Machine
end

