-- ==== Sys2Proof/Machine/Flags.lean ====
section
/-! DEFINITION. The bits of PSR and every flag computation the spec gives (R7, R9, R24, R31, R127, R128). -/

namespace Sys2Proof.Machine

/-- Zero_Flag, `psr[0]` (R24). -/
def zBit : BitIndex := 0
/-- Carry_Flag, `psr[1]` (R24). -/
def cBit : BitIndex := 1
/-- Negative_Flag, `psr[2]` (R24). -/
def nBit : BitIndex := 2
/-- Interrupt_Enable, `psr[3]` (R24). -/
def iBit : BitIndex := 3

/-- The byte with only bit n set. -/
def bitMask (n : BitIndex) : Byte := 1#8 <<< n.val

/-- `v[n]` of a byte (R6). -/
def bitOf (v : Byte) (n : BitIndex) : Bool := v.getLsbD n.val

/-- `v[n] <- b` of a byte (R8). -/
def withBit (v : Byte) (n : BitIndex) (b : Bool) : Byte := if b then v ||| bitMask n else v &&& ~~~(bitMask n)

/-- `psr[n]` (R8). -/
def State.flag (s : State) (n : BitIndex) : Bool := bitOf s.psr n

/-- `psr[n] <- b` (R8). -/
def State.setFlag (s : State) (n : BitIndex) (b : Bool) : State := s.setPsr (withBit s.psr n b)

/-- `add9(a, b, c)`: the exact sum, which fits 9 bits (R9). -/
def add9 (a b : Byte) (c : Bool) : BitVec 9 := a.setWidth 9 + b.setWidth 9 + (BitVec.ofBool c).setWidth 9

/-- `neg8(v) = (256 - v) mod 256` (R9). -/
def neg8 (v : Byte) : Byte := 0 - v

/-- "(-Rn)" as a 9-bit addend, at the configured width (R120 (b), D5). -/
def negAddend (w : NegWidth) (v : Byte) : BitVec 9 :=
  match w with
  | .eight => (neg8 v).setWidth 9
  | .nine => 0 - v.setWidth 9

/-- `R0 + (-Rn) + c`, cut to 9 bits (R120, R126, D5). -/
def subSum (w : NegWidth) (a b : Byte) (c : Bool) : BitVec 9 :=
  a.setWidth 9 + negAddend w b + (BitVec.ofBool c).setWidth 9

/-- `s[7:0]` of a 9-bit sum. -/
def low8 (s : BitVec 9) : Byte := s.setWidth 8

/-- `s[8]` of a 9-bit sum: the carry (R6, R9). -/
def carry9 (s : BitVec 9) : Bool := s.getLsbD 8

/-- `setNZ(v)` (R9). -/
def State.setNZ (s : State) (v : Byte) : State := (s.setFlag nBit (bitOf v 7)).setFlag zBit (v == 0)

/-- `setNCZ(s)` (R9). -/
def State.setNCZ (s : State) (t : BitVec 9) : State :=
  ((s.setFlag nBit (t.getLsbD 7)).setFlag cBit (carry9 t)).setFlag zBit (low8 t == 0)

end Sys2Proof.Machine
end

