-- ==== Sys2Proof/Machine/Ops.lean ====
section
/-! DEFINITION. The named operations over memory, the stack and the program counter that the meanings share, and the
machine's one trap: entering an interrupt and returning from it (20_memory.md, 41_stack_and_branch.md, R253, R255). -/

namespace Sys2Proof.Machine

/-- The outcome of an instruction from that of its operations. -/
def finish (r : Except Halt State) : Result :=
  match r with
  | .ok s => .next s
  | .error (.fault f) => .fault f
  | .error (.refusal q) => .refused q

/-- `MemRead(a, 1)` (R8, R57, R66): a byte of memory; from a device, the next free value; a byte nothing has written
faults; an absent address is refused. -/
def readByte (a : Addr) (s : State) : Except Halt (Byte × State) :=
  match s.kindAt a with
  | .plain | .readOnly =>
    match s.byteAt a with
    | some v => .ok (v, s)
    | none => .error (.fault (.unwrittenByte a))
  | .device => .ok (Config.freeByte s.freeCount, { s with freeCount := s.freeCount + 1 })
  | .absent => .error (.refusal (.absentAddress a))

/-- `MemWrite(a, 1, v)` (R8, R57). The address is marked as stored to, for R62. A device takes the byte and the state
keeps nothing of it. -/
def writeByte (a : Addr) (v : Byte) (s : State) : Except Halt State :=
  match s.kindAt a with
  | .plain =>
    .ok { s with mem := Memory.insert s.mem a.toNat v, stored := AddressSet.insert s.stored a.toNat }
  | .device => .ok { s with stored := AddressSet.insert s.stored a.toNat }
  | .readOnly => .error (.refusal (.readOnlyAddress a))
  | .absent => .error (.refusal (.absentAddress a))

/-- `push(v)`: decrement STACK, then write (R9, R25, D3). -/
def push (v : Byte) (s : State) : Except Halt State := writeByte (s.sp - 1) v (s.setSp (s.sp - 1))

/-- Pushes a 16-bit value, high byte first, so that its low byte lies at the lower address (R51, R65). -/
def pushWord (v : Addr) (s : State) : Except Halt State := do
  let s1 ← push (hi8 v) s
  push (lo8 v) s1

/-- The 16-bit value with its low byte at `a`, the low byte read first (R51, R65, D20). -/
def readWord (a : Addr) (s : State) : Except Halt (Addr × State) := do
  let (lo, s1) ← readByte a s
  let (hi, s2) ← readByte (a + 1) s1
  return (word16 hi lo, s2)

/-- Whether interrupt n is accepted: it is the NMI, or it is enabled and its mask bit is 1 (R252). -/
def State.accepts (s : State) (n : BitIndex) : Bool := n == 0 || (s.flag iBit && bitOf s.imr n)

/-- TAKING AN INTERRUPT, the trap entry sequence (R253): PSR is pushed as it was, Interrupt_Enable is cleared, the
return address is pushed, and `pc` is loaded from vector n. -/
def takeInterrupt (n : BitIndex) (ret : Addr) (s : State) : Except Halt State := do
  let s1 ← push s.psr s
  let s2 ← pushWord ret (s1.setFlag iBit false)
  let (handler, s3) ← readWord (s2.vectorAddr n) s2
  return s3.setPc handler

/-- The address an executed INT saves (R160 point 2, D7). -/
def State.intReturn (s : State) : Addr := s.pc + s.cfg.intReturnOffset.setWidth 16

/-- RETURN FROM INTERRUPT (R166, R255): the address and then PSR are popped. -/
def returnFromInterrupt (s : State) : Except Halt State := do
  let (target, s1) ← readWord s.sp s
  let (p, s2) ← readByte (s.sp + 2) s1
  return ((s2.setSp (s.sp + 3)).setPsr p).setPc target

/-- A relative branch of two bytes: to its target if it is taken, else to the next instruction (R145). -/
def branchIf (taken : Bool) (offset : Byte) (s : State) : State :=
  if taken then s.setPc (s.branchTarget offset) else s.advance 2

/-- The net effect of a five-byte conditional jump: the jump, or on past it (R243). -/
def jumpIf (taken : Bool) (addr : Addr) (s : State) : State :=
  if taken then s.setPc addr else s.advance 5

/-- A form with A = 1 has a meaning only on a core with auto-increment (R200, D10). -/
def checkAutoIncrement (a : Bool) (s : State) : Except Halt Unit :=
  if a && !s.cfg.autoIncrement then .error (.refusal .autoincrementNotImplemented) else .ok ()

end Sys2Proof.Machine
end

