-- ==== Sys2Proof/Machine/Arithmetic.lean ====
section
/-! DEFINITION. INC, ADC, DEC, SBC, ADD, CMP (40_alu_and_psr.md), MUL (R161) and UPP (R190). -/

namespace Sys2Proof.Machine

/-- A register and N, C, Z from a 9-bit sum, and on to the next instruction (R110, R127). -/
def storeSum (n : Reg) (t : BitVec 9) (s : State) : State := ((s.setReg n (low8 t)).setNCZ t).advance 1

/-- INC Rn (R111). -/
def execInc (n : Reg) (s : State) : Result := .next (storeSum n (add9 (s.reg n) 0x01 false) s)

/-- ADC Rn (R112). -/
def execAdc (n : Reg) (s : State) : Result := .next (storeSum .r0 (add9 (s.reg .r0) (s.reg n) (s.flag cBit)) s)

/-- DEC Rn (R119). -/
def execDec (n : Reg) (s : State) : Result := .next (storeSum n (add9 (s.reg n) 0xFF false) s)

/-- SBC where the carry is added: the Operation line (R120). -/
def sbcAdded (n : Reg) (s : State) : State :=
  storeSum .r0 (subSum s.cfg.subNegWidth (s.reg .r0) (s.reg n) (s.flag cBit)) s

/-- SBC where the carry is subtracted (R120 (a), D6): the spec states the difference and no carry out, so the carry is a
free value (log entry 9). DESIGN CHOICE. -/
def sbcSubtracted (n : Reg) (s : State) : State :=
  let d := s.reg .r0 - s.reg n - (BitVec.ofBool (s.flag cBit)).setWidth 8
  let c := Config.freeSbcCarry (s.reg .r0) (s.reg n) (s.flag cBit)
  (((s.setReg .r0 d).setFlag cBit c).setNZ d).advance 1

/-- SBC Rn (R120, D5, D6). -/
def execSbc (n : Reg) (s : State) : Result :=
  match s.cfg.sbcCarry with
  | .added => .next (sbcAdded n s)
  | .subtracted => .next (sbcSubtracted n s)

/-- ADD Rn (R121). -/
def execAdd (n : Reg) (s : State) : Result := .next (storeSum .r0 (add9 (s.reg .r0) (s.reg n) false) s)

/-- CMP Rn (R126): only N, C and Z change. -/
def execCmp (n : Reg) (s : State) : Result :=
  .next ((s.setNCZ (subSum s.cfg.subNegWidth (s.reg .r0) (s.reg n) false)).advance 1)

/-- The exact unsigned product of two bytes (R127 point 5, R161). -/
def product16 (a b : Byte) : Addr := zeroExtend16 a * zeroExtend16 b

/-- MUL Rn (R161): both factors are read before the pair R1:R0 is written; only Z changes. -/
def execMul (n : Reg) (s : State) : Result :=
  let p := product16 (s.reg n) (s.reg .r0)
  .next (((s.setPair .p0 p).setFlag zBit (p == 0)).advance 1)

/-- UPP Re (R190): only C changes, to the carry out of bit 15. -/
def execUpp (e : Pair) (s : State) : Result :=
  let t : BitVec 17 := (s.pair e).setWidth 17 + 1
  .next (((s.setPair e (t.setWidth 16)).setFlag cBit (t.getLsbD 16)).advance 1)

end Sys2Proof.Machine
end

