-- ==== Sys2Proof/Machine/Branch.lean ====
section
/-! DEFINITION. Control transfer: BR0, BR1, DBNZ (R142 to R145), JMP, JSR, RTS (R168, R171, R165) and BRK (R167). -/

namespace Sys2Proof.Machine

/-- BR0 n, offset (R142). -/
def execBr0 (n : BitIndex) (offset : Byte) (s : State) : Result := .next (branchIf (!s.flag n) offset s)

/-- BR1 n, offset (R143). -/
def execBr1 (n : BitIndex) (offset : Byte) (s : State) : Result := .next (branchIf (s.flag n) offset s)

/-- The register and flag effects of DBNZ, those of DEC (R144). -/
def decremented (n : Reg) (s : State) : State :=
  let t := add9 (s.reg n) 0xFF false
  (s.setReg n (low8 t)).setNCZ t

/-- DBNZ Rn, offset (R144): the branch tests the Z it has just written. -/
def execDbnz (n : Reg) (offset : Byte) (s : State) : Result :=
  .next (branchIf (!(decremented n s).flag zBit) offset (decremented n s))

/-- JMP addr (R168). -/
def execJmp (addr : Addr) (s : State) : Result := .next (s.setPc addr)

/-- JSR addr (R171): the address of the following instruction is pushed. -/
def execJsr (addr : Addr) (s : State) : Result := finish do
  let s1 ← pushWord (s.pc + 3) s
  return s1.setPc addr

/-- RTS (R165): the popped address is used as it is. -/
def execRts (s : State) : Result := finish do
  let (target, s1) ← readWord s.sp s
  return (s1.setSp (s.sp + 2)).setPc target

/-- BRK (R167): no operation. -/
def execBrk (s : State) : Result := .next (s.advance 1)

end Sys2Proof.Machine
end

