-- ==== Sys2Proof/Machine/Interrupt.lean ====
section
/-! DEFINITION. INT, RTI, SMSK, GMSK (R160, R166, R169, R170) and external interrupt requests (R256 to R259). -/

namespace Sys2Proof.Machine

/-- INT n (R160): taken if accepted, else a one-byte no-operation that leaves no trace. -/
def execInt (n : BitIndex) (s : State) : Result :=
  if s.accepts n then finish (takeInterrupt n s.intReturn s) else .next (s.advance 1)

/-- RTI (R166). -/
def execRti (s : State) : Result := finish (returnFromInterrupt s)

/-- SMSK (R169): R0 itself does not change. -/
def execSmsk (s : State) : Result := .next ((s.setImr (s.reg .r0)).advance 1)

/-- GMSK (R170): Z receives the constant 0. -/
def execGmsk (s : State) : Result :=
  .next ((((s.setReg .r0 s.imr).setFlag nBit (bitOf s.imr 7)).setFlag zBit false).advance 1)

/-- The interrupt numbers in the order they are taken: lowest first (R258, D13). -/
def priorityOrder : List BitIndex := [0, 1, 2, 3, 4, 5, 6, 7]

/-- The external request taken in place of the next instruction, if there is one (R257): the lowest requested number
that is accepted. -/
def State.takenRequest (s : State) : Option BitIndex :=
  match s.cfg.extInterrupts, s.requests with
  | true, set :: _ => priorityOrder.find? fun n => bitOf set n && s.accepts n
  | _, _ => none

/-- The state with the oracle's answer for this step used up (R257). -/
def State.pollRequests (s : State) : State :=
  if s.cfg.extInterrupts then { s with requests := s.requests.tail } else s

end Sys2Proof.Machine
end

