-- ==== Sys2Proof/Machine/LoadStore.lean ====
section
/-! DEFINITION. STA, STX, STO, LDI, LDA, LDX, LDO (43_pair_load_store.md) and the unassigned bytes (R191). -/

namespace Sys2Proof.Machine

/-- First bytes 0xC1, 0xC3, 0xC5, 0xC7: no meaning (R95, R191, D9). -/
def execUnassigned (_e : Pair) (_s : State) : Result := .refused .unassignedOpcode

/-- STA Rn, addr (R192). -/
def execSta (n : Reg) (addr : Addr) (s : State) : Result := finish do
  let s1 ← writeByte addr (s.reg n) s
  return s1.advance 3

/-- R0 stored at `ea`, then the pair plus A (R193, R194). -/
def storeIndexed (ea : Addr) (e : Pair) (a : Bool) (len : Addr) (s : State) : Except Halt State := do
  checkAutoIncrement a s
  let s1 ← writeByte ea (s.reg .r0) s
  return (s1.bumpPair e a).advance len

/-- STX Re[++] (R193). -/
def execStx (e : Pair) (a : Bool) (s : State) : Result := finish (storeIndexed (s.indexedAddr e) e a 1 s)

/-- STO Re[++], offset (R194). -/
def execSto (e : Pair) (a : Bool) (offset : Byte) (s : State) : Result :=
  finish (storeIndexed (s.offsetAddr e offset) e a 2 s)

/-- LDI Rn, imm8 (R195). -/
def execLdi (n : Reg) (imm : Byte) (s : State) : Result := .next (((s.setReg n imm).setNZ imm).advance 2)

/-- LDA Rn, addr (R196). -/
def execLda (n : Reg) (addr : Addr) (s : State) : Result := finish do
  let (v, s1) ← readByte addr s
  return ((s1.setReg n v).setNZ v).advance 3

/-- R0 and N, Z loaded from `ea`, then the pair plus A. The lines run in order, so where the pair is R1:R0 the loaded
byte is what is incremented (R197, R198, D11). -/
def loadIndexed (ea : Addr) (e : Pair) (a : Bool) (len : Addr) (s : State) : Except Halt State := do
  checkAutoIncrement a s
  let (v, s1) ← readByte ea s
  return (((s1.setReg .r0 v).setNZ v).bumpPair e a).advance len

/-- LDX Re[++] (R197). -/
def execLdx (e : Pair) (a : Bool) (s : State) : Result := finish (loadIndexed (s.indexedAddr e) e a 1 s)

/-- LDO Re[++], offset (R198). -/
def execLdo (e : Pair) (a : Bool) (offset : Byte) (s : State) : Result :=
  finish (loadIndexed (s.offsetAddr e offset) e a 2 s)

end Sys2Proof.Machine
end

