-- ==== Sys2Proof/Machine/Logic.lean ====
section
/-! DEFINITION. OR, AND, XOR, ROL, ROR, BTT and the transfers TX0, T0X (40_alu_and_psr.md). -/

namespace Sys2Proof.Machine

/-- A register and N, Z from a byte, and on to the next instruction (R110). -/
def storeByte (n : Reg) (v : Byte) (s : State) : State := ((s.setReg n v).setNZ v).advance 1

/-- TX0 Rn (R113). -/
def execTx0 (n : Reg) (s : State) : Result := .next (storeByte .r0 (s.reg n) s)

/-- T0X Rn (R125). -/
def execT0x (n : Reg) (s : State) : Result := .next (storeByte n (s.reg .r0) s)

/-- OR Rn (R114). -/
def execOr (n : Reg) (s : State) : Result := .next (storeByte .r0 (s.reg .r0 ||| s.reg n) s)

/-- AND Rn (R115). -/
def execAnd (n : Reg) (s : State) : Result := .next (storeByte .r0 (s.reg .r0 &&& s.reg n) s)

/-- XOR Rn (R116). -/
def execXor (n : Reg) (s : State) : Result := .next (storeByte .r0 (s.reg .r0 ^^^ s.reg n) s)

/-- `x[n][6:0] : C`, the byte rotated left through the carry (R117). -/
def rotateLeft (v : Byte) (c : Bool) : Byte := v.extractLsb' 0 7 ++ BitVec.ofBool c

/-- `C : x[n][7:1]`, the byte rotated right through the carry (R118). -/
def rotateRight (v : Byte) (c : Bool) : Byte := BitVec.ofBool c ++ v.extractLsb' 1 7

/-- ROL Rn (R117): C receives the former bit 7. -/
def execRol (n : Reg) (s : State) : Result :=
  .next (storeByte n (rotateLeft (s.reg n) (s.flag cBit)) (s.setFlag cBit (bitOf (s.reg n) 7)))

/-- ROR Rn (R118): C receives the former bit 0. -/
def execRor (n : Reg) (s : State) : Result :=
  .next (storeByte n (rotateRight (s.reg n) (s.flag cBit)) (s.setFlag cBit (bitOf (s.reg n) 0)))

/-- BTT n (R123): Z is the complement of the tested bit of R0, N is bit 7 of R0. -/
def execBtt (n : BitIndex) (s : State) : Result :=
  .next (((s.setFlag zBit (!bitOf (s.reg .r0) n)).setFlag nBit (bitOf (s.reg .r0) 7)).advance 1)

end Sys2Proof.Machine
end

