-- ==== Sys2Proof/Machine/PsrBits.lean ====
section
/-! DEFINITION. STP and CLP: the bits of PSR one at a time (R122, R124). -/

namespace Sys2Proof.Machine

/-- One bit of PSR written, and on to the next instruction. -/
def writePsrBit (n : BitIndex) (b : Bool) (s : State) : State := (s.setFlag n b).advance 1

/-- STP n (R122). -/
def execStp (n : BitIndex) (s : State) : Result := .next (writePsrBit n true s)

/-- CLP n (R124). -/
def execClp (n : BitIndex) (s : State) : Result := .next (writePsrBit n false s)

end Sys2Proof.Machine
end

