-- ==== Sys2Proof/Machine/Pseudo.lean ====
section
/-! DEFINITION. The 22 pseudo-mnemonics (44_pseudo_mnemonics.md). Each acts as the hardware instruction it stands for
(R220). The six conditional jumps stand for two instructions; their meaning is the net effect of the pair (R243). -/

namespace Sys2Proof.Machine

/-- STI = STP 3 (R221). -/
def execSti (s : State) : Result := execStp 3 s
/-- CLI = CLP 3 (R222). -/
def execCli (s : State) : Result := execClp 3 s
/-- STZ = STP 0 (R223). -/
def execStz (s : State) : Result := execStp 0 s
/-- CLZ = CLP 0 (R224). -/
def execClz (s : State) : Result := execClp 0 s
/-- STN = STP 2 (R225). -/
def execStn (s : State) : Result := execStp 2 s
/-- CLN = CLP 2 (R226). -/
def execCln (s : State) : Result := execClp 2 s
/-- STC = STP 1 (R227). -/
def execStc (s : State) : Result := execStp 1 s
/-- CLC = CLP 1 (R228). -/
def execClc (s : State) : Result := execClp 1 s
/-- NOP = BRK (R229). -/
def execNop (s : State) : Result := execBrk s
/-- BRZ offset = BR1 0, offset (R230). -/
def execBrz (offset : Byte) (s : State) : Result := execBr1 0 offset s
/-- BRNZ offset = BR0 0, offset (R231). -/
def execBrnz (offset : Byte) (s : State) : Result := execBr0 0 offset s
/-- BRLZ offset = BR1 2, offset (R232). -/
def execBrlz (offset : Byte) (s : State) : Result := execBr1 2 offset s
/-- BRGEZ offset = BR0 2, offset (R233). -/
def execBrgez (offset : Byte) (s : State) : Result := execBr0 2 offset s
/-- BRC offset = BR1 1, offset (R234). -/
def execBrc (offset : Byte) (s : State) : Result := execBr1 1 offset s
/-- BRNC offset = BR0 1, offset (R235). -/
def execBrnc (offset : Byte) (s : State) : Result := execBr0 1 offset s
/-- JMPZ addr = BRNZ .+5 ; JMP addr (R236). -/
def execJmpz (addr : Addr) (s : State) : Result := .next (jumpIf (s.flag zBit) addr s)
/-- JMPNZ addr = BRZ .+5 ; JMP addr (R237). -/
def execJmpnz (addr : Addr) (s : State) : Result := .next (jumpIf (!s.flag zBit) addr s)
/-- JMPLZ addr = BRGEZ .+5 ; JMP addr (R238). -/
def execJmplz (addr : Addr) (s : State) : Result := .next (jumpIf (s.flag nBit) addr s)
/-- JMPGEZ addr = BRLZ .+5 ; JMP addr (R239). -/
def execJmpgez (addr : Addr) (s : State) : Result := .next (jumpIf (!s.flag nBit) addr s)
/-- JMPC addr = BRNC .+5 ; JMP addr (R240). -/
def execJmpc (addr : Addr) (s : State) : Result := .next (jumpIf (s.flag cBit) addr s)
/-- JMPNC addr = BRC .+5 ; JMP addr (R241). -/
def execJmpnc (addr : Addr) (s : State) : Result := .next (jumpIf (!s.flag cBit) addr s)
/-- CLR = XOR R0 (R242). -/
def execClr (s : State) : Result := execXor .r0 s

end Sys2Proof.Machine
end

