-- ==== Sys2Proof/Machine/Stack.lean ====
section
/-! DEFINITION. PSH and POP (R140, R141, R146) and RSP (R164). -/

namespace Sys2Proof.Machine

/-- PSH Rn (R140). -/
def execPsh (n : Reg) (s : State) : Result := finish do
  let s1 ← push (s.reg n) s
  return s1.advance 1

/-- POP Rn (R141): no flag changes. -/
def execPop (n : Reg) (s : State) : Result := finish do
  let (v, s1) ← readByte s.sp s
  return ((s1.setReg n v).setSp (s.sp + 1)).advance 1

/-- The stack pointer's default initial value (R164, R280). -/
def stackDefault : Addr := 0x007F

/-- RSP (R164): to R1:R0 on a core that can move the stack, else to the default. -/
def execRsp (s : State) : Result :=
  .next ((s.setSp (if s.cfg.allowStackAddressMove then s.pair .p0 else stackDefault)).advance 1)

end Sys2Proof.Machine
end

