-- ==== Sys2Proof/Machine/Dispatch.lean ====
section
/-! DEFINITION. What each instruction does: one arm per constructor, one meaning per arm. -/

namespace Sys2Proof.Machine

def exec (i : Instr) (s : State) : Host.Outcome State Fault Refusal :=
  match i with
  | .inc n => Sys2Proof.Machine.execInc n s
  | .adc n => Sys2Proof.Machine.execAdc n s
  | .tx0 n => Sys2Proof.Machine.execTx0 n s
  | .or n => Sys2Proof.Machine.execOr n s
  | .and n => Sys2Proof.Machine.execAnd n s
  | .xor n => Sys2Proof.Machine.execXor n s
  | .rol n => Sys2Proof.Machine.execRol n s
  | .ror n => Sys2Proof.Machine.execRor n s
  | .dec n => Sys2Proof.Machine.execDec n s
  | .sbc n => Sys2Proof.Machine.execSbc n s
  | .add n => Sys2Proof.Machine.execAdd n s
  | .stp n => Sys2Proof.Machine.execStp n s
  | .btt n => Sys2Proof.Machine.execBtt n s
  | .clp n => Sys2Proof.Machine.execClp n s
  | .t0x n => Sys2Proof.Machine.execT0x n s
  | .cmp n => Sys2Proof.Machine.execCmp n s
  | .psh n => Sys2Proof.Machine.execPsh n s
  | .pop n => Sys2Proof.Machine.execPop n s
  | .br0 n offset => Sys2Proof.Machine.execBr0 n offset s
  | .br1 n offset => Sys2Proof.Machine.execBr1 n offset s
  | .dbnz n offset => Sys2Proof.Machine.execDbnz n offset s
  | .int n => Sys2Proof.Machine.execInt n s
  | .mul n => Sys2Proof.Machine.execMul n s
  | .rsp => Sys2Proof.Machine.execRsp s
  | .rts => Sys2Proof.Machine.execRts s
  | .rti => Sys2Proof.Machine.execRti s
  | .brk => Sys2Proof.Machine.execBrk s
  | .jmp addr => Sys2Proof.Machine.execJmp addr s
  | .smsk => Sys2Proof.Machine.execSmsk s
  | .gmsk => Sys2Proof.Machine.execGmsk s
  | .jsr addr => Sys2Proof.Machine.execJsr addr s
  | .upp e => Sys2Proof.Machine.execUpp e s
  | .unassigned e => Sys2Proof.Machine.execUnassigned e s
  | .sta n addr => Sys2Proof.Machine.execSta n addr s
  | .stx e a => Sys2Proof.Machine.execStx e a s
  | .sto e a offset => Sys2Proof.Machine.execSto e a offset s
  | .ldi n imm => Sys2Proof.Machine.execLdi n imm s
  | .lda n addr => Sys2Proof.Machine.execLda n addr s
  | .ldx e a => Sys2Proof.Machine.execLdx e a s
  | .ldo e a offset => Sys2Proof.Machine.execLdo e a offset s
  | .sti => Sys2Proof.Machine.execSti s
  | .cli => Sys2Proof.Machine.execCli s
  | .stz => Sys2Proof.Machine.execStz s
  | .clz => Sys2Proof.Machine.execClz s
  | .stn => Sys2Proof.Machine.execStn s
  | .cln => Sys2Proof.Machine.execCln s
  | .stc => Sys2Proof.Machine.execStc s
  | .clc => Sys2Proof.Machine.execClc s
  | .nop => Sys2Proof.Machine.execNop s
  | .brz offset => Sys2Proof.Machine.execBrz offset s
  | .brnz offset => Sys2Proof.Machine.execBrnz offset s
  | .brlz offset => Sys2Proof.Machine.execBrlz offset s
  | .brgez offset => Sys2Proof.Machine.execBrgez offset s
  | .brc offset => Sys2Proof.Machine.execBrc offset s
  | .brnc offset => Sys2Proof.Machine.execBrnc offset s
  | .jmpz addr => Sys2Proof.Machine.execJmpz addr s
  | .jmpnz addr => Sys2Proof.Machine.execJmpnz addr s
  | .jmplz addr => Sys2Proof.Machine.execJmplz addr s
  | .jmpgez addr => Sys2Proof.Machine.execJmpgez addr s
  | .jmpc addr => Sys2Proof.Machine.execJmpc addr s
  | .jmpnc addr => Sys2Proof.Machine.execJmpnc addr s
  | .clr => Sys2Proof.Machine.execClr s

end Sys2Proof.Machine
end

