-- ==== Sys2Proof/WellFormed.lean ====
section
/-! DEFINITION. Which instructions the hardware has an encoding of its own for. Every value of every operand field is
legal (R82, R83, R84, R96), so the checks are about the instruction: an assembler alias and an unassigned byte are
no hardware instruction (R95, R106). -/

namespace Sys2Proof

/-- The 22 pseudo-mnemonics (R106, R220). -/
def Instr.isAlias : Instr → Bool
  | .sti | .cli | .stz | .clz | .stn | .cln | .stc | .clc | .nop | .clr => true
  | .brz _ | .brnz _ | .brlz _ | .brgez _ | .brc _ | .brnc _ => true
  | .jmpz _ | .jmpnz _ | .jmplz _ | .jmpgez _ | .jmpc _ | .jmpnc _ => true
  | .inc _ | .adc _ | .tx0 _ | .or _ | .and _ | .xor _ | .rol _ | .ror _ | .dec _ | .sbc _ | .add _ => false
  | .stp _ | .btt _ | .clp _ | .t0x _ | .cmp _ | .psh _ | .pop _ | .br0 _ _ | .br1 _ _ | .dbnz _ _ => false
  | .int _ | .mul _ | .rsp | .rts | .rti | .brk | .jmp _ | .smsk | .gmsk | .jsr _ | .upp _ => false
  | .unassigned _ | .sta _ _ | .stx _ _ | .sto _ _ _ | .ldi _ _ | .lda _ _ | .ldx _ _ | .ldo _ _ _ => false

/-- The four unassigned first bytes (R95). -/
def Instr.isUnassigned : Instr → Bool
  | .unassigned _ => true
  | _ => false

/-- One of the 39 hardware instructions of R87 and R88. -/
def Instr.wellFormed (i : Instr) : Bool := !i.isAlias && !i.isUnassigned

end Sys2Proof
end

