-- ==== Sys2Proof/Decode.lean ====
section
/-! DEFINITION. Instruction bytes to instructions and back (30_encoding.md). The decoder looks at the 40 hardware and
unassigned rows of the opcode table only; alias rows are not used for decoding (R98). -/

namespace Sys2Proof

open Machine

/-! ## Fields -/

/-- The register field `rrr` (R82). -/
def regOf (f : BitVec 3) : Reg :=
  match f.toNat with
  | 0 => .r0
  | 1 => .r1
  | 2 => .r2
  | 3 => .r3
  | 4 => .r4
  | 5 => .r5
  | 6 => .r6
  | _ => .r7

/-- The register number as a field (R82). -/
def regBits : Reg → BitVec 3
  | .r0 => 0
  | .r1 => 1
  | .r2 => 2
  | .r3 => 3
  | .r4 => 4
  | .r5 => 5
  | .r6 => 6
  | .r7 => 7

/-- The pair field `ee`, bits 2:1 of the first byte: Re = R(2*ee) (R84). -/
def pairOf (f : BitVec 3) : Pair :=
  match (f.extractLsb' 1 2).toNat with
  | 0 => .p0
  | 1 => .p2
  | 2 => .p4
  | _ => .p6

/-- The pair number as a field (R84). -/
def pairBits : Pair → BitVec 2
  | .p0 => 0
  | .p2 => 1
  | .p4 => 2
  | .p6 => 3

/-- The A field, bit 0 of the first byte (R84). -/
def autoField (f : BitVec 3) : Bool := f.getLsbD 0

/-- The sub-operand bits of a pair instruction: `ee` and then A (R84). -/
def pairAutoBits (e : Pair) (a : Bool) : BitVec 3 := pairBits e ++ BitVec.ofBool a

/-- The number field `nnn` or bit index `bbb` (R83). -/
def indexOf (f : BitVec 3) : BitIndex := f.toFin

/-- A number 0..7 as a field (R83). -/
def indexBits (n : BitIndex) : BitVec 3 := BitVec.ofFin n

/-! ## Decoding -/

/-- The length of an instruction, a function of its first byte alone (R89). The unassigned bytes have the length 1 that
Appendix B prints for them. -/
def instrLength (b0 : Byte) : Nat :=
  match (opcodeField b0).toNat with
  | 18 | 19 | 20 | 27 | 28 | 31 => 2
  | 25 | 29 => 3
  | 23 =>
    match (subopField b0).toNat with
    | 4 | 7 => 3
    | _ => 1
  | _ => 1

/-- The instruction of opcode 10111 that the Select field names (R88, R162). -/
def decodeSelect (select : BitVec 3) (addr : Addr) : Instr :=
  match select.toNat with
  | 0 => .rsp
  | 1 => .rts
  | 2 => .rti
  | 3 => .brk
  | 4 => .jmp addr
  | 5 => .smsk
  | 6 => .gmsk
  | _ => .jsr addr

/-- The instruction with first byte `b0` and operand bytes `b1`, `b2` (looked at only where the length of R89 has
them), by the opcode map of R87. The address operand has its low byte first (R52, D1). -/
def decodeBytes (b0 b1 b2 : Byte) : Instr :=
  let f := subopField b0
  match (opcodeField b0).toNat with
  | 0 => .inc (regOf f)
  | 1 => .adc (regOf f)
  | 2 => .tx0 (regOf f)
  | 3 => .or (regOf f)
  | 4 => .and (regOf f)
  | 5 => .xor (regOf f)
  | 6 => .rol (regOf f)
  | 7 => .ror (regOf f)
  | 8 => .dec (regOf f)
  | 9 => .sbc (regOf f)
  | 10 => .add (regOf f)
  | 11 => .stp (indexOf f)
  | 12 => .btt (indexOf f)
  | 13 => .clp (indexOf f)
  | 14 => .t0x (regOf f)
  | 15 => .cmp (regOf f)
  | 16 => .psh (regOf f)
  | 17 => .pop (regOf f)
  | 18 => .br0 (indexOf f) b1
  | 19 => .br1 (indexOf f) b1
  | 20 => .dbnz (regOf f) b1
  | 21 => .int (indexOf f)
  | 22 => .mul (regOf f)
  | 23 => decodeSelect f (word16 b2 b1)
  | 24 => if autoField f then .unassigned (pairOf f) else .upp (pairOf f)
  | 25 => .sta (regOf f) (word16 b2 b1)
  | 26 => .stx (pairOf f) (autoField f)
  | 27 => .sto (pairOf f) (autoField f) b1
  | 28 => .ldi (regOf f) b1
  | 29 => .lda (regOf f) (word16 b2 b1)
  | 30 => .ldx (pairOf f) (autoField f)
  | _ => .ldo (pairOf f) (autoField f) b1

/-- Why a list of bytes holds no instruction. -/
inductive DecodeError where
  /-- The list is empty. -/
  | noBytes
  /-- The first byte asks for more operand bytes than the list holds (R89). -/
  | missingOperandBytes
deriving DecidableEq, Repr

/-- The first instruction of a list of bytes and the bytes after it (R97). -/
def decode (bytes : List Byte) : Except DecodeError (Instr × List Byte) :=
  match bytes with
  | [] => .error .noBytes
  | b0 :: rest =>
    match instrLength b0, rest with
    | 1, rest => .ok (decodeBytes b0 0 0, rest)
    | 2, b1 :: rest => .ok (decodeBytes b0 b1 0, rest)
    | 3, b1 :: b2 :: rest => .ok (decodeBytes b0 b1 b2, rest)
    | _, _ => .error .missingOperandBytes

/-- The first `n` instructions of a list of bytes and the bytes after them. -/
def decodeMany (n : Nat) (bytes : List Byte) : Except DecodeError (List Instr × List Byte) :=
  match n with
  | 0 => .ok ([], bytes)
  | n + 1 =>
    match decode bytes with
    | .error e => .error e
    | .ok (i, rest) =>
      match decodeMany n rest with
      | .error e => .error e
      | .ok (is, rest') => .ok (i :: is, rest')

/-- Byte `k` of a number, bits 8k+7 to 8k. -/
def byteOfNat (w k : Nat) : Byte := BitVec.ofNat 8 (w / 256 ^ k)

/-- The bytes `k`, `k + 1`, … of a number, `count` of them. -/
def bytesOfNat (w k count : Nat) : List Byte :=
  match count with
  | 0 => []
  | c + 1 => byteOfNat w k :: bytesOfNat w (k + 1) c

/-- How many bytes are laid out for an instruction of `nbits` bits: at least the longest hardware instruction, at most
the longest row of the opcode table (R80, R243). -/
def layoutLength (nbits : Nat) : Nat := max 3 (min 5 ((nbits + 7) / 8))

/-- The instruction whose bits are `w`, first byte in the low bits and every bit above `nbits` zero, as the bytes lie in
memory. -/
def layoutBytes (nbits w : Nat) : List Byte := bytesOfNat (w % 2 ^ nbits) 0 (layoutLength nbits)

/-- What the decoder reads from an instruction given as a number of `nbits` bits. -/
def decodeTableWord (nbits w : Nat) : Option Instr :=
  match decode (layoutBytes nbits w) with
  | .ok (i, _) => some i
  | .error _ => none

/-! ## Encoding -/

/-- The instruction's bytes, first byte first (R81, R87, R88; the aliases' bytes are those of R221 to R242). -/
def encode : Instr → List Byte
  | .inc n => [firstByte 0b00000 (regBits n)]
  | .adc n => [firstByte 0b00001 (regBits n)]
  | .tx0 n => [firstByte 0b00010 (regBits n)]
  | .or n => [firstByte 0b00011 (regBits n)]
  | .and n => [firstByte 0b00100 (regBits n)]
  | .xor n => [firstByte 0b00101 (regBits n)]
  | .rol n => [firstByte 0b00110 (regBits n)]
  | .ror n => [firstByte 0b00111 (regBits n)]
  | .dec n => [firstByte 0b01000 (regBits n)]
  | .sbc n => [firstByte 0b01001 (regBits n)]
  | .add n => [firstByte 0b01010 (regBits n)]
  | .stp n => [firstByte 0b01011 (indexBits n)]
  | .btt n => [firstByte 0b01100 (indexBits n)]
  | .clp n => [firstByte 0b01101 (indexBits n)]
  | .t0x n => [firstByte 0b01110 (regBits n)]
  | .cmp n => [firstByte 0b01111 (regBits n)]
  | .psh n => [firstByte 0b10000 (regBits n)]
  | .pop n => [firstByte 0b10001 (regBits n)]
  | .br0 n o => [firstByte 0b10010 (indexBits n), o]
  | .br1 n o => [firstByte 0b10011 (indexBits n), o]
  | .dbnz n o => [firstByte 0b10100 (regBits n), o]
  | .int n => [firstByte 0b10101 (indexBits n)]
  | .mul n => [firstByte 0b10110 (regBits n)]
  | .rsp => [firstByte 0b10111 0b000]
  | .rts => [firstByte 0b10111 0b001]
  | .rti => [firstByte 0b10111 0b010]
  | .brk => [firstByte 0b10111 0b011]
  | .jmp addr => [firstByte 0b10111 0b100, lo8 addr, hi8 addr]
  | .smsk => [firstByte 0b10111 0b101]
  | .gmsk => [firstByte 0b10111 0b110]
  | .jsr addr => [firstByte 0b10111 0b111, lo8 addr, hi8 addr]
  | .upp e => [firstByte 0b11000 (pairAutoBits e false)]
  | .unassigned e => [firstByte 0b11000 (pairAutoBits e true)]
  | .sta n addr => [firstByte 0b11001 (regBits n), lo8 addr, hi8 addr]
  | .stx e a => [firstByte 0b11010 (pairAutoBits e a)]
  | .sto e a o => [firstByte 0b11011 (pairAutoBits e a), o]
  | .ldi n imm => [firstByte 0b11100 (regBits n), imm]
  | .lda n addr => [firstByte 0b11101 (regBits n), lo8 addr, hi8 addr]
  | .ldx e a => [firstByte 0b11110 (pairAutoBits e a)]
  | .ldo e a o => [firstByte 0b11111 (pairAutoBits e a), o]
  | .sti => [0x5B]
  | .cli => [0x6B]
  | .stz => [0x58]
  | .clz => [0x68]
  | .stn => [0x5A]
  | .cln => [0x6A]
  | .stc => [0x59]
  | .clc => [0x69]
  | .nop => [0xBB]
  | .brz o => [0x98, o]
  | .brnz o => [0x90, o]
  | .brlz o => [0x9A, o]
  | .brgez o => [0x92, o]
  | .brc o => [0x99, o]
  | .brnc o => [0x91, o]
  | .jmpz addr => [0x90, 0x05, 0xBC, lo8 addr, hi8 addr]
  | .jmpnz addr => [0x98, 0x05, 0xBC, lo8 addr, hi8 addr]
  | .jmplz addr => [0x92, 0x05, 0xBC, lo8 addr, hi8 addr]
  | .jmpgez addr => [0x9A, 0x05, 0xBC, lo8 addr, hi8 addr]
  | .jmpc addr => [0x91, 0x05, 0xBC, lo8 addr, hi8 addr]
  | .jmpnc addr => [0x99, 0x05, 0xBC, lo8 addr, hi8 addr]
  | .clr => [0x28]

/-- How many bytes an instruction takes: the Length column of the opcode table. -/
def Instr.length : Instr → Nat
  | .inc _ | .adc _ | .tx0 _ | .or _ | .and _ | .xor _ | .rol _ | .ror _ | .dec _ | .sbc _ | .add _ => 1
  | .stp _ | .btt _ | .clp _ | .t0x _ | .cmp _ | .psh _ | .pop _ | .int _ | .mul _ => 1
  | .br0 _ _ | .br1 _ _ | .dbnz _ _ => 2
  | .rsp | .rts | .rti | .brk | .smsk | .gmsk | .upp _ | .unassigned _ | .stx _ _ | .ldx _ _ => 1
  | .jmp _ | .jsr _ | .sta _ _ | .lda _ _ => 3
  | .sto _ _ _ | .ldo _ _ _ | .ldi _ _ => 2
  | .sti | .cli | .stz | .clz | .stn | .cln | .stc | .clc | .nop | .clr => 1
  | .brz _ | .brnz _ | .brlz _ | .brgez _ | .brc _ | .brnc _ => 2
  | .jmpz _ | .jmpnz _ | .jmplz _ | .jmpgez _ | .jmpc _ | .jmpnc _ => 5

/-- The hardware instructions a pseudo-mnemonic stands for (R220 to R243); any other instruction stands for itself. -/
def expansion : Instr → List Instr
  | .sti => [.stp 3]
  | .cli => [.clp 3]
  | .stz => [.stp 0]
  | .clz => [.clp 0]
  | .stn => [.stp 2]
  | .cln => [.clp 2]
  | .stc => [.stp 1]
  | .clc => [.clp 1]
  | .nop => [.brk]
  | .brz o => [.br1 0 o]
  | .brnz o => [.br0 0 o]
  | .brlz o => [.br1 2 o]
  | .brgez o => [.br0 2 o]
  | .brc o => [.br1 1 o]
  | .brnc o => [.br0 1 o]
  | .jmpz addr => [.br0 0 5, .jmp addr]
  | .jmpnz addr => [.br1 0 5, .jmp addr]
  | .jmplz addr => [.br0 2 5, .jmp addr]
  | .jmpgez addr => [.br1 2 5, .jmp addr]
  | .jmpc addr => [.br0 1 5, .jmp addr]
  | .jmpnc addr => [.br1 1 5, .jmp addr]
  | .clr => [.xor .r0]
  | i => [i]

end Sys2Proof
end

