-- ==== Sys2Proof/Machine/Fetch.lean ====
section
/-! DEFINITION. Fetching an instruction's bytes (R22, R62, R66), and placing bytes where the next fetch reads them. -/

namespace Sys2Proof.Machine

/-- Reads one instruction byte. An address the program has stored to is refused (R62, D21). -/
def fetchByte (a : Addr) (s : State) : Except Halt (Byte × State) :=
  if s.modified a then .error (.refusal (.fetchOfModifiedByte a)) else readByte a s

/-- The instruction at `pc`: its first byte, then as many operand bytes as that byte asks for, at `(pc+1) mod 2^16` and
`(pc+2) mod 2^16` (R22, R89). -/
def fetch (s : State) : Except Halt (Instr × State) := do
  let (b0, s1) ← fetchByte s.pc s
  match instrLength b0 with
  | 1 => return (decodeBytes b0 0 0, s1)
  | 2 =>
    let (b1, s2) ← fetchByte (s.pc + 1) s1
    return (decodeBytes b0 b1 0, s2)
  | _ =>
    let (b1, s2) ← fetchByte (s.pc + 1) s1
    let (b2, s3) ← fetchByte (s.pc + 2) s2
    return (decodeBytes b0 b1 b2, s3)

/-- Whether memory contents can be read at an address. -/
def holdsBytes : RegionKind → Bool
  | .plain | .readOnly => true
  | .device | .absent => false

/-- Loads one byte from outside the machine: memory holds it, and the program has not stored there (R62 "Loading a program
into memory before the run is not a store"). Where no memory stands behind the address, one plain byte is put there. -/
def loadByte (a : Addr) (v : Byte) (s : State) : State :=
  { s with
    cfg := if holdsBytes (s.kindAt a) then s.cfg
      else { s.cfg with memMap := ⟨a.toNat, 1, .plain⟩ :: s.cfg.memMap }
    mem := Memory.insert s.mem a.toNat v
    stored := AddressSet.remove s.stored a.toNat }

/-- Loads bytes at consecutive addresses from `a` on (R80). -/
def loadBytes (a : Addr) (bytes : List Byte) (s : State) : State :=
  match bytes with
  | [] => s
  | v :: rest => loadBytes (a + 1) rest (loadByte a v s)

/-- The state in which no external request stands before the next step. -/
def quietRequests (s : State) : State :=
  match s.cfg.extInterrupts, s.requests with
  | true, _ :: _ => { s with requests := 0 :: s.requests }
  | _, _ => s

end Sys2Proof.Machine
end

