-- ==== Sys2Proof/Machine/Step.lean ====
section
/-! DEFINITION. One step of the machine (R22): an accepted external request takes the place of an instruction (R257),
else the instruction at `pc` is fetched and executed. -/

namespace Sys2Proof.Machine

/-- One step. -/
def step (s : State) : Host.Outcome State Fault Refusal :=
  match s.takenRequest with
  | some n => finish (takeInterrupt n s.pc s.pollRequests)
  | none =>
    match fetch s.pollRequests with
    | .ok (i, s1) => exec i s1
    | .error h => finish (.error h)

/-- The state with an instruction of `nbits` bits loaded at `pc`, so that the next step fetches it. -/
def State.withFetchWord (s : State) (nbits w : Nat) : State :=
  quietRequests (loadBytes s.pc (layoutBytes nbits w) s)

end Sys2Proof.Machine
end

