-- ==== Sys2Proof/Machine/Assembly.lean ====
section
/-! DEFINITION. The assembler's side of an instruction, as far as the spec shows it (R100 to R105): the statement forms,
the even-register rule of `Re`, and the operand of a relative branch. -/

namespace Sys2Proof.Machine

/-- `R0` .. `R7` (R101). -/
def showReg : Reg → String
  | .r0 => "R0"
  | .r1 => "R1"
  | .r2 => "R2"
  | .r3 => "R3"
  | .r4 => "R4"
  | .r5 => "R5"
  | .r6 => "R6"
  | .r7 => "R7"

/-- The even register that stands for a pair (R101). -/
def showPair : Pair → String
  | .p0 => "R0"
  | .p2 => "R2"
  | .p4 => "R4"
  | .p6 => "R6"

/-- The pair an `Re` operand names. What the assembler does with an odd register is not stated (R101): it names no pair
here. DESIGN CHOICE (log entry 21). -/
def pairOfReg : Reg → Option Pair
  | .r0 => some .p0
  | .r2 => some .p2
  | .r4 => some .p4
  | .r6 => some .p6
  | .r1 | .r3 | .r5 | .r7 => none

/-- `Re` or `Re++` (R103). -/
def showIndexed (e : Pair) (a : Bool) : String := showPair e ++ (if a then "++" else "")

/-- A number 0..7 without a prefix (R102), an immediate, an unsigned offset or an address. That the last three are
written in decimal is the model's choice: the number syntax is in no source (R4). DESIGN CHOICE (log entry 21). -/
def showNumber (n : Nat) : String := toString n

/-- The offset byte of a branch as the expression `.+k` or `.-k` for its target (R104, D25), as the spec's examples write
it (S5, S10 and S12 of 95_test_vectors.md). -/
def showTarget (o : Byte) : String :=
  if o.toNat < 128 then ".+" ++ toString o.toNat else ".-" ++ toString (256 - o.toNat)

/-- The offset byte the assembler stores for a branch at `site` to `target`, if it lies in -128..+127 (R104, D25).
The difference is taken modulo 2^16, so that a target across the 0xFFFF/0x0000 boundary is in range, and any other target
out of range has no offset byte: R104 states neither. DESIGN CHOICE (log entry 22). -/
def branchOffset (site target : Addr) : Option Byte :=
  if signExtend16 (lo8 (target - site)) = target - site then some (lo8 (target - site)) else none

/-- An instruction as an assembler statement (R100, R106). -/
def showInstr : Instr → String
  | .inc n => "INC " ++ showReg n
  | .adc n => "ADC " ++ showReg n
  | .tx0 n => "TX0 " ++ showReg n
  | .or n => "OR " ++ showReg n
  | .and n => "AND " ++ showReg n
  | .xor n => "XOR " ++ showReg n
  | .rol n => "ROL " ++ showReg n
  | .ror n => "ROR " ++ showReg n
  | .dec n => "DEC " ++ showReg n
  | .sbc n => "SBC " ++ showReg n
  | .add n => "ADD " ++ showReg n
  | .stp n => "STP " ++ showNumber n.val
  | .btt n => "BTT " ++ showNumber n.val
  | .clp n => "CLP " ++ showNumber n.val
  | .t0x n => "T0X " ++ showReg n
  | .cmp n => "CMP " ++ showReg n
  | .psh n => "PSH " ++ showReg n
  | .pop n => "POP " ++ showReg n
  | .br0 n o => "BR0 " ++ showNumber n.val ++ ", " ++ showTarget o
  | .br1 n o => "BR1 " ++ showNumber n.val ++ ", " ++ showTarget o
  | .dbnz n o => "DBNZ " ++ showReg n ++ ", " ++ showTarget o
  | .int n => "INT " ++ showNumber n.val
  | .mul n => "MUL " ++ showReg n
  | .rsp => "RSP"
  | .rts => "RTS"
  | .rti => "RTI"
  | .brk => "BRK"
  | .jmp addr => "JMP " ++ showNumber addr.toNat
  | .smsk => "SMSK"
  | .gmsk => "GMSK"
  | .jsr addr => "JSR " ++ showNumber addr.toNat
  | .upp e => "UPP " ++ showPair e
  | .unassigned _ => "(unassigned)"
  | .sta n addr => "STA " ++ showReg n ++ ", " ++ showNumber addr.toNat
  | .stx e a => "STX " ++ showIndexed e a
  | .sto e a o => "STO " ++ showIndexed e a ++ ", " ++ showNumber o.toNat
  | .ldi n imm => "LDI " ++ showReg n ++ ", " ++ showNumber imm.toNat
  | .lda n addr => "LDA " ++ showReg n ++ ", " ++ showNumber addr.toNat
  | .ldx e a => "LDX " ++ showIndexed e a
  | .ldo e a o => "LDO " ++ showIndexed e a ++ ", " ++ showNumber o.toNat
  | .sti => "STI"
  | .cli => "CLI"
  | .stz => "STZ"
  | .clz => "CLZ"
  | .stn => "STN"
  | .cln => "CLN"
  | .stc => "STC"
  | .clc => "CLC"
  | .nop => "NOP"
  | .brz o => "BRZ " ++ showTarget o
  | .brnz o => "BRNZ " ++ showTarget o
  | .brlz o => "BRLZ " ++ showTarget o
  | .brgez o => "BRGEZ " ++ showTarget o
  | .brc o => "BRC " ++ showTarget o
  | .brnc o => "BRNC " ++ showTarget o
  | .jmpz addr => "JMPZ " ++ showNumber addr.toNat
  | .jmpnz addr => "JMPNZ " ++ showNumber addr.toNat
  | .jmplz addr => "JMPLZ " ++ showNumber addr.toNat
  | .jmpgez addr => "JMPGEZ " ++ showNumber addr.toNat
  | .jmpc addr => "JMPC " ++ showNumber addr.toNat
  | .jmpnc addr => "JMPNC " ++ showNumber addr.toNat
  | .clr => "CLR"

/-- A statement: `[label:] MNEMONIC [operand[, operand]]` (R100). -/
def showStatement (label : Option String) (i : Instr) : String :=
  match label with
  | none => showInstr i
  | some l => l ++ ": " ++ showInstr i

end Sys2Proof.Machine
end

