-- ==== Sys2Proof/Machine/Clocks.lean ====
section
/-! DEFINITION. The clock counts of R284, an annotation: no step depends on them (R285, D26). -/

namespace Sys2Proof.Machine

/-- What the source states of an instruction's duration. -/
inductive ClockCount where
  /-- One figure, taken or not. -/
  | always (n : Nat)
  /-- A figure for a taken INT; that of one not taken is open (C1, D26). -/
  | whenTaken (n : Nat)
  /-- "3 or 6": the first if the jump is not made, the second if it is (R243). -/
  | skippedOrMade (skipped made : Nat)
  /-- Appendix B's figure for the unassigned bytes, whose behaviour it does not give (R95). -/
  | printedOnly (n : Nat)
deriving DecidableEq, Repr

/-- The clocks of an instruction (R284). -/
def clocks : Instr → ClockCount
  | .inc _ | .adc _ | .tx0 _ | .or _ | .and _ | .xor _ | .rol _ | .ror _ | .dec _ | .sbc _ | .add _ => .always 1
  | .stp _ | .btt _ | .clp _ | .t0x _ | .cmp _ => .always 1
  | .psh _ | .pop _ => .always 3
  | .br0 _ _ | .br1 _ _ | .dbnz _ _ => .always 3
  | .int _ => .whenTaken 7
  | .mul _ => .always 2
  | .rsp | .brk | .smsk | .gmsk => .always 1
  | .rts | .rti => .always 5
  | .jmp _ => .always 3
  | .jsr _ => .always 5
  | .upp _ => .always 2
  | .unassigned _ => .printedOnly 1
  | .sta _ _ | .lda _ _ => .always 4
  | .stx _ _ | .ldx _ _ => .always 3
  | .sto _ _ _ | .ldo _ _ _ => .always 4
  | .ldi _ _ => .always 2
  | .sti | .cli | .stz | .clz | .stn | .cln | .stc | .clc | .nop | .clr => .always 1
  | .brz _ | .brnz _ | .brlz _ | .brgez _ | .brc _ | .brnc _ => .always 3
  | .jmpz _ | .jmpnz _ | .jmplz _ | .jmpgez _ | .jmpc _ | .jmpnc _ => .skippedOrMade 3 6

end Sys2Proof.Machine
end

