-- ==== Sys2Proof/Safety.lean ====
section
/-! DEFINITION. The terms claims are stated in: the invariant of the machine, what an instruction keeps, what a read of
memory gives and where an access stops, and how an instruction is encoded. -/

namespace Sys2Proof

open Machine

/-- The number of a register (R82). -/
def Reg.number : Reg → Byte
  | .r0 => 0
  | .r1 => 1
  | .r2 => 2
  | .r3 => 3
  | .r4 => 4
  | .r5 => 5
  | .r6 => 6
  | .r7 => 7

/-- The number of the even register of a pair, `2 * ee` (R84). -/
def Pair.number : Pair → Byte
  | .p0 => 0
  | .p2 => 2
  | .p4 => 4
  | .p6 => 6

/-- The A field as a number (R84). -/
def autoNumber (a : Bool) : Byte := if a then 1 else 0

/-- An interrupt number or bit index as a byte. -/
def indexNumber (n : BitIndex) : Byte := BitVec.ofNat 8 n.val

/-- The instruction is written as these bytes, and these bytes alone are read as the instruction. -/
def EncodedAs (i : Instr) (bytes : List Byte) : Prop := encode i = bytes ∧ decode bytes = .ok (i, [])

namespace Machine

/-! ## The invariant -/

/-- What holds at reset and what every step keeps: memory and the set of stored addresses are in canonical form, and
bit 0 of the mask register is 1 (R26). -/
def State.Inv (s : State) : Prop :=
  Memory.wf s.mem = true ∧ AddressSet.wf s.stored = true ∧ bitOf s.imr 0 = true

/-- The outcome is a next state with property `P`. -/
def NextWith (r : Result) (P : State → Prop) : Prop := ∃ t, r = .next t ∧ P t

/-! ## What is kept -/

/-- Every register outside `written` is unchanged. -/
def KeepsRegs (written : List Reg) (s t : State) : Prop := ∀ n, n ∉ written → t.reg n = s.reg n

/-- Every bit of PSR outside `written` is unchanged. -/
def KeepsFlags (written : List BitIndex) (s t : State) : Prop := ∀ n, n ∉ written → t.flag n = s.flag n

/-- Every byte of memory outside `written` reads as before, and is marked as stored to exactly if it was. -/
def KeepsMemory (written : List Addr) (s t : State) : Prop :=
  ∀ a, a ∉ written → t.byteAt a = s.byteAt a ∧ t.modified a = s.modified a

/-- The machine's parameters and the pending inputs are unchanged. -/
def KeepsInputs (s t : State) : Prop := t.cfg = s.cfg ∧ t.requests = s.requests

/-- Outside the listed registers, flags and addresses everything is unchanged but the program counter, STACK and the
count of free values, of which a statement speaks for itself. -/
def Frame (regs : List Reg) (flags : List BitIndex) (addrs : List Addr) (s t : State) : Prop :=
  KeepsRegs regs s t ∧ KeepsFlags flags s t ∧ KeepsMemory addrs s t ∧ t.imr = s.imr ∧ KeepsInputs s t

/-- Nothing but the listed registers and flags, and the program counter, is changed. -/
def OnlyRegsAndFlags (regs : List Reg) (flags : List BitIndex) (s t : State) : Prop :=
  Frame regs flags [] s t ∧ t.sp = s.sp ∧ t.freeCount = s.freeCount

/-- The program counter is at the next instruction, `k` bytes on (R23). -/
def MovedOn (k : Addr) (s t : State) : Prop := t.pc = s.pc + k

/-- N and Z are those of the byte `v` (R9 `setNZ`). -/
def SignAndZeroOf (v : Byte) (t : State) : Prop :=
  t.flag nBit = decide (128 ≤ v.toNat) ∧ t.flag zBit = decide (v = 0)

/-- A register holds the low eight bits of a sum, C is its bit 8, and N and Z are those of the register (R9 `setNCZ`,
R127). -/
def SumWritten (n : Reg) (sum : Nat) (t : State) : Prop :=
  (t.reg n).toNat = sum % 256 ∧ t.flag cBit = decide (256 ≤ sum) ∧ SignAndZeroOf (t.reg n) t

/-- `n` executions of one instruction, one after another. -/
def repeatExec (n : Nat) (i : Instr) (s : State) : Result :=
  match n with
  | 0 => .next s
  | n + 1 =>
    match exec i s with
    | .next t => repeatExec n i t
    | r => r

/-! ## Memory accesses -/

/-- Reading address `a`, where memory holds `held` and `used` free values have been used, gives `v` and leaves `used'`
free values used: a byte memory holds, or a device's next answer. -/
def ReadsAs (s : State) (held : Option Byte) (used : Nat) (a : Addr) (v : Byte) (used' : Nat) : Prop :=
  (holdsBytes (s.kindAt a) = true ∧ held = some v ∧ used' = used) ∨
    (s.kindAt a = .device ∧ v = Config.freeByte used ∧ used' = used + 1)

/-- Why a read of address `a` stops, where memory holds `held`. -/
def readStop (s : State) (held : Option Byte) (a : Addr) : Option Halt :=
  match s.kindAt a with
  | .plain | .readOnly => if held = none then some (.fault (.unwrittenByte a)) else none
  | .device => none
  | .absent => some (.refusal (.absentAddress a))

/-- Why a write to address `a` stops. -/
def writeStop (s : State) (a : Addr) : Option Halt :=
  match s.kindAt a with
  | .plain | .device => none
  | .readOnly => some (.refusal (.readOnlyAddress a))
  | .absent => some (.refusal (.absentAddress a))

/-- A write to `a` is possible: plain memory or a device stands behind it. -/
abbrev Writable (s : State) (a : Addr) : Prop := writeStop s a = none

/-- What memory holds at `b` once the byte `v` has been written to `a`: a device keeps nothing. -/
def heldAfter (s : State) (a : Addr) (v : Byte) (held : Addr → Option Byte) (b : Addr) : Option Byte :=
  if b = a ∧ s.kindAt a = .plain then some v else held b

/-- The byte `v` has been written to `a`: plain memory reads as it, a device's address reads as before, and the address
is marked as stored to. -/
def Wrote (a : Addr) (v : Byte) (s t : State) : Prop :=
  t.byteAt a = heldAfter s a v s.byteAt a ∧ t.modified a = true

/-- What memory holds at `b` after the three pushes of an interrupt entry (R253). -/
def entryMemory (s : State) (ret : Addr) (b : Addr) : Option Byte :=
  heldAfter s (s.sp - 3) (lo8 ret) (heldAfter s (s.sp - 2) (hi8 ret) (heldAfter s (s.sp - 1) s.psr s.byteAt)) b

/-- Why an interrupt entry stops: the first of its accesses that does, in the order of R65, the three stack writes and
then the two vector reads. -/
def entryStop (s : State) (n : BitIndex) (ret : Addr) : Option Halt :=
  let va := s.vectorAddr n
  (writeStop s (s.sp - 1)).or <| (writeStop s (s.sp - 2)).or <| (writeStop s (s.sp - 3)).or <|
    (readStop s (entryMemory s ret va) va).or (readStop s (entryMemory s ret (va + 1)) (va + 1))

/-- An interrupt entry can finish: its three stack bytes can be written, and its vector then reads as `hi : lo`, with
`used` free values used. -/
def EntryPossible (s : State) (n : BitIndex) (ret : Addr) (lo hi : Byte) (used : Nat) : Prop :=
  Writable s (s.sp - 1) ∧ Writable s (s.sp - 2) ∧ Writable s (s.sp - 3) ∧
    ∃ k, ReadsAs s (entryMemory s ret (s.vectorAddr n)) s.freeCount (s.vectorAddr n) lo k ∧
      ReadsAs s (entryMemory s ret (s.vectorAddr n + 1)) k (s.vectorAddr n + 1) hi used

/-- The interrupt entry sequence has been gone through (R253). -/
def Entered (ret : Addr) (lo hi : Byte) (used : Nat) (s t : State) : Prop :=
  t.pc = word16 hi lo ∧ t.sp = s.sp - 3 ∧ t.flag iBit = false ∧
    Wrote (s.sp - 1) s.psr s t ∧ Wrote (s.sp - 2) (hi8 ret) s t ∧ Wrote (s.sp - 3) (lo8 ret) s t ∧
    Frame [] [iBit] [s.sp - 1, s.sp - 2, s.sp - 3] s t ∧ t.freeCount = used

/-- The bytes lie in unmodified memory at `a`, `a + 1`, …, for the fetch to read (R22, R62). -/
def BytesAt (s : State) (a : Addr) (bytes : List Byte) : Prop :=
  match bytes with
  | [] => True
  | v :: rest =>
    holdsBytes (s.kindAt a) = true ∧ s.byteAt a = some v ∧ s.modified a = false ∧ BytesAt s (a + 1) rest

/-- The six conditional absolute jumps: the tested bit, the value that makes the jump, and the target (R236 to R241). -/
def conditionalJump : Instr → Option (BitIndex × Bool × Addr)
  | .jmpz addr => some (zBit, true, addr)
  | .jmpnz addr => some (zBit, false, addr)
  | .jmplz addr => some (nBit, true, addr)
  | .jmpgez addr => some (nBit, false, addr)
  | .jmpc addr => some (cBit, true, addr)
  | .jmpnc addr => some (cBit, false, addr)
  | _ => none

/-- The six conditional branches: the tested bit, the value that takes the branch, and the offset (R230 to R235). -/
def conditionalBranch : Instr → Option (BitIndex × Bool × Byte)
  | .brz o => some (zBit, true, o)
  | .brnz o => some (zBit, false, o)
  | .brlz o => some (nBit, true, o)
  | .brgez o => some (nBit, false, o)
  | .brc o => some (cBit, true, o)
  | .brnc o => some (cBit, false, o)
  | _ => none

/-- The bits of PSR an instruction may write, row by row of the table of R31. -/
def flagsWritten : Instr → List BitIndex
  | .inc _ | .adc _ | .dec _ | .sbc _ | .add _ | .cmp _ | .dbnz _ _ => [nBit, cBit, zBit]
  | .rol _ | .ror _ => [nBit, cBit, zBit]
  | .tx0 _ | .or _ | .and _ | .xor _ | .t0x _ | .ldi _ _ | .lda _ _ | .ldx _ _ | .ldo _ _ _ => [nBit, zBit]
  | .btt _ | .gmsk => [nBit, zBit]
  | .mul _ => [zBit]
  | .upp _ => [cBit]
  | .stp n | .clp n => [n]
  | .int _ => [iBit]
  | .rti => [0, 1, 2, 3, 4, 5, 6, 7]
  | .psh _ | .pop _ | .br0 _ _ | .br1 _ _ | .rsp | .rts | .brk | .jmp _ | .smsk | .jsr _ => []
  | .sta _ _ | .stx _ _ | .sto _ _ _ | .unassigned _ => []
  | .sti | .cli => [iBit]
  | .stz | .clz => [zBit]
  | .stn | .cln => [nBit]
  | .stc | .clc => [cBit]
  | .clr => [nBit, zBit]
  | .nop | .brz _ | .brnz _ | .brlz _ | .brgez _ | .brc _ | .brnc _ => []
  | .jmpz _ | .jmpnz _ | .jmplz _ | .jmpgez _ | .jmpc _ | .jmpnc _ => []

/-- The general registers an instruction may write (R20, R21). -/
def regsWritten : Instr → List Reg
  | .inc n | .rol n | .ror n | .dec n | .t0x n | .pop n | .dbnz n _ | .ldi n _ | .lda n _ => [n]
  | .adc _ | .tx0 _ | .or _ | .and _ | .xor _ | .sbc _ | .add _ | .gmsk | .clr => [.r0]
  | .mul _ => [.r0, .r1]
  | .upp e | .stx e _ | .sto e _ _ => [evenReg e, oddReg e]
  | .ldx e _ | .ldo e _ _ => [.r0, evenReg e, oddReg e]
  | _ => []

/-- The instructions that may write STACK (R25, R146). -/
def writesStackPointer : Instr → Bool
  | .psh _ | .pop _ | .jsr _ | .rts | .int _ | .rti | .rsp => true
  | _ => false

/-- The addresses an instruction may store to (R50). -/
def addrsWritten (s : State) : Instr → List Addr
  | .psh _ => [s.sp - 1]
  | .jsr _ => [s.sp - 1, s.sp - 2]
  | .int _ => [s.sp - 1, s.sp - 2, s.sp - 3]
  | .sta _ addr => [addr]
  | .stx e _ => [s.indexedAddr e]
  | .sto e _ o => [s.offsetAddr e o]
  | _ => []

/-- The result of a stop. -/
def stopped (h : Halt) : Result := finish (.error h)

end Machine

end Sys2Proof
end

