-- ==== Sys2Proof/Certificates/Slice0/Obligations.lean ====
section
/-! DEFINITION. The statements for the provers. Each docstring names the rule it formalises, and the model's choice or the
spec's decision it rests on where it rests on one. -/

open Sys2Proof
open Sys2Proof.Machine

/-! ## Encoding -/

/-- Words written out bit by bit from R81, R87 and R88 decode to the instructions they stand for. The order of the
address bytes is the spec's decision D1 (log entry 10). -/
def Obligations.SampleWordsDecodeAsEncoded : Prop :=
  decode [0b00000101] = .ok (.inc .r5, []) ∧
  decode [0b01011011] = .ok (.stp 3, []) ∧
  decode [0b10010010, 0b10000000] = .ok (.br0 2 0x80, []) ∧
  decode [0b10100001, 0b11111111] = .ok (.dbnz .r1 0xFF, []) ∧
  decode [0b10111100, 0x34, 0x12] = .ok (.jmp 0x1234, []) ∧
  decode [0b10111110] = .ok (.gmsk, []) ∧
  decode [0b11000110] = .ok (.upp .p6, []) ∧
  decode [0b11001101, 0x00, 0x20] = .ok (.sta .r5 0x2000, []) ∧
  decode [0b11111101, 0x02] = .ok (.ldo .p4 true 0x02, [])

/-- DECODE AND ENCODE AGREE: every hardware instruction, with every operand, is read back from its bytes, whatever bytes
follow (R81, R87, R88; the order of the address bytes is decision D1, log entry 10). -/
def Obligations.DecodeOfEncodeIsTheInstruction : Prop :=
  ∀ (i : Instr) (rest : List Byte), i.wellFormed = true → decode (encode i ++ rest) = .ok (i, rest)

/-- No bit of an encoding is dropped: the bytes a decoded instruction came from are its encoding, and it is a hardware
instruction or an unassigned byte, never an alias (R97, R98; D1, log entry 10). -/
def Obligations.EncodeOfDecodeIsTheBytes : Prop :=
  ∀ (bytes rest : List Byte) (i : Instr), decode bytes = .ok (i, rest) →
    bytes = encode i ++ rest ∧ (i.wellFormed = true ∨ ∃ e, i = .unassigned e)

/-- R89: the length is a function of the first byte alone, as the table gives it; decoding fails only for want of operand
bytes. (The length 1 of the unassigned bytes is Appendix B's entry; the spec refuses them: log entry 8.) -/
def Obligations.LengthFollowsTheFirstByte : Prop :=
  ∀ (b0 : Byte) (rest : List Byte),
    let op := b0.toNat / 8
    let sel := b0.toNat % 8
    let len := if op = 18 ∨ op = 19 ∨ op = 20 ∨ op = 27 ∨ op = 28 ∨ op = 31 then 2
      else if op = 25 ∨ op = 29 ∨ (op = 23 ∧ (sel = 4 ∨ sel = 7)) then 3 else 1
    if len ≤ rest.length + 1 then
      ∃ i, decode (b0 :: rest) = .ok (i, (b0 :: rest).drop len) ∧ i.length = len
    else decode (b0 :: rest) = .error .missingOperandBytes

/-- R95: exactly the first bytes 0xC1, 0xC3, 0xC5 and 0xC7 are unassigned, and executing one is refused in every state
(the refusal is the spec's decision D9, log entry 8). -/
def Obligations.UnassignedBytesAreRefused : Prop :=
  (∀ b0 b1 b2 : Byte, (∃ e, decodeBytes b0 b1 b2 = .unassigned e) ↔ b0 = 0xC1 ∨ b0 = 0xC3 ∨ b0 = 0xC5 ∨ b0 = 0xC7) ∧
  ∀ (e : Pair) (s : State), exec (.unassigned e) s = .refused .unassignedOpcode

/-- R106, R220: the bytes of every instruction are read as the hardware instructions it stands for, in order; for a
pseudo-mnemonic those are its expansion (D1 for the jumps, log entry 10). -/
def Obligations.BytesReadAsTheExpansion : Prop :=
  ∀ i : Instr, decodeMany (expansion i).length (encode i) = .ok (expansion i, []) ∧
    ((i.isAlias = false → expansion i = [i]) ∧ ∀ j ∈ expansion i, j.isAlias = false)

/-- R104: an assembled branch offset reaches its target from the branch's own address, and every offset byte is
assembled from the target it reaches (decision D25, log entry 14). That a target across the 0xFFFF/0x0000 boundary is in
range is the model's choice (log entry 22). -/
def Obligations.AssembledOffsetReachesTarget : Prop :=
  (∀ (s : State) (target : Addr) (o : Byte), branchOffset s.pc target = some o → s.branchTarget o = target) ∧
  ∀ (s : State) (o : Byte), branchOffset s.pc (s.branchTarget o) = some o

/-! ## The step -/

/-- R22: where no external request is taken and the fetch gives an instruction, the step is its execution, in a state
that differs from the one before at most in the used-up answer of the request oracle and the count of free values. -/
def Obligations.StepRunsTheDecodedInstruction : Prop :=
  ∀ (s s1 : State) (i : Instr), s.takenRequest = none → fetch s.pollRequests = .ok (i, s1) →
    step s = exec i s1 ∧ s1 = { s with requests := s.pollRequests.requests, freeCount := s1.freeCount }

/-- R22: where an instruction's bytes lie in memory at the program counter, unmodified by the program, the step is the
execution of that instruction (its bytes wrap past 0xFFFF: decision D2, log entry 11). -/
def Obligations.StepRunsTheInstructionInMemory : Prop :=
  ∀ (s : State) (i : Instr), i.wellFormed = true → s.takenRequest = none → BytesAt s s.pc (encode i) →
    step s = exec i s.pollRequests

/-- An instruction placed by `withFetchWord` is the one the very next step runs, in every state; the placing changes no
register (log entry 12: how a program comes to run). -/
def Obligations.PlacedWordRunsNext : Prop :=
  ∀ (s : State) (nbits w : Nat) (i : Instr), decodeTableWord nbits w = some i →
    step (s.withFetchWord nbits w) = exec i (s.withFetchWord nbits w).pollRequests ∧
    (s.withFetchWord nbits w).regs = s.regs ∧ (s.withFetchWord nbits w).psr = s.psr ∧
    (s.withFetchWord nbits w).pc = s.pc ∧ (s.withFetchWord nbits w).sp = s.sp ∧ (s.withFetchWord nbits w).imr = s.imr

/-- R62 and R66 (the spec's decisions D21 and D27, log entries 5 and 6): fetching a byte of an instruction from an
address the program has stored to is refused, so an instruction a store has just written is not run; and a byte that
cannot be read (one that nothing has written, or an absent address) stops the step as that read does. Both are said of
the first byte, and of the second and third where the bytes before them lie in memory. -/
def Obligations.FetchStopsOnModifiedOrUnwritten : Prop :=
  (∀ s : State, s.takenRequest = none → s.modified s.pc = true →
    step s = .refused (.fetchOfModifiedByte s.pc)) ∧
  (∀ (s : State) (b0 : Byte), s.takenRequest = none → BytesAt s s.pc [b0] → 2 ≤ instrLength b0 →
    s.modified (s.pc + 1) = true → step s = .refused (.fetchOfModifiedByte (s.pc + 1))) ∧
  (∀ (s : State) (b0 b1 : Byte), s.takenRequest = none → BytesAt s s.pc [b0, b1] → instrLength b0 = 3 →
    s.modified (s.pc + 2) = true → step s = .refused (.fetchOfModifiedByte (s.pc + 2))) ∧
  (∀ (s t : State) (n : Reg) (addr : Addr), s.cfg.extInterrupts = false → exec (.sta n addr) s = .next t →
    t.pc = addr → step t = .refused (.fetchOfModifiedByte addr)) ∧
  (∀ (s : State) (h : Halt), s.takenRequest = none → s.modified s.pc = false →
    readStop s (s.byteAt s.pc) s.pc = some h → step s = stopped h) ∧
  (∀ (s : State) (b0 : Byte) (h : Halt), s.takenRequest = none → BytesAt s s.pc [b0] → 2 ≤ instrLength b0 →
    s.modified (s.pc + 1) = false → readStop s (s.byteAt (s.pc + 1)) (s.pc + 1) = some h → step s = stopped h) ∧
  (∀ (s : State) (b0 b1 : Byte) (h : Halt), s.takenRequest = none → BytesAt s s.pc [b0, b1] → instrLength b0 = 3 →
    s.modified (s.pc + 2) = false → readStop s (s.byteAt (s.pc + 2)) (s.pc + 2) = some h → step s = stopped h)

/-- R252 and R257 (decisions D12 and D13, log entry 13): with `EXT_INTERRUPTS`, the lowest requested number that is
accepted is taken in place of the step, with the interrupted address as the return address; where no requested number is
accepted, or the oracle has no more answers, no entry is made, the oracle's answer is used up and the instruction at `pc`
is run; without the option no request counts. -/
def Obligations.LowestAcceptedRequestIsTaken : Prop :=
  (∀ (s : State) (n : BitIndex) (set : Byte) (later : List Byte) (lo hi : Byte) (used : Nat),
    s.cfg.extInterrupts = true → s.requests = set :: later → bitOf set n = true →
    (n = 0 ∨ (s.flag iBit = true ∧ bitOf s.imr n = true)) →
    (∀ m : BitIndex, m < n → bitOf set m = true → ¬(m = 0 ∨ (s.flag iBit = true ∧ bitOf s.imr m = true))) →
    EntryPossible s n s.pc lo hi used →
    NextWith (step s) fun t => Entered s.pc lo hi used { s with requests := later } t) ∧
  (∀ (s : State) (set : Byte) (later : List Byte), s.cfg.extInterrupts = true → s.requests = set :: later →
    (∀ m : BitIndex, bitOf set m = true → ¬(m = 0 ∨ (s.flag iBit = true ∧ bitOf s.imr m = true))) →
    s.takenRequest = none ∧ s.pollRequests = { s with requests := later } ∧
      ∀ (i : Instr) (s1 : State), fetch { s with requests := later } = .ok (i, s1) → step s = exec i s1) ∧
  (∀ s : State, s.cfg.extInterrupts = true → s.requests = [] →
    s.takenRequest = none ∧ s.pollRequests = s ∧
      ∀ (i : Instr) (s1 : State), fetch s = .ok (i, s1) → step s = exec i s1) ∧
  (∀ s : State, s.cfg.extInterrupts = false → s.takenRequest = none ∧ s.pollRequests = s)

/-! ## Reset -/

/-- R280: what reset leaves, for every machine instance, memory image, and unspecified R0..R7 and PSR: STACK 0x007F, mask
bit 0 set and the others from `RESET_IMR`, the program counter at `RESET_PC`, the image's bytes in memory and no other
byte (decisions D16 and D27: log entries 1, 2 and 5). -/
def Obligations.ResetLeavesTheStatedValues : Prop :=
  ∀ (cfg : Config) (image : List Host.Cell) (regs : Regs) (psr : Byte) (requests : List Byte),
    let s := State.resetWith cfg image regs psr requests
    s.sp = 0x007F ∧ bitOf s.imr 0 = true ∧ (∀ n : BitIndex, n ≠ 0 → bitOf s.imr n = bitOf cfg.resetImr n) ∧
    s.pc = cfg.resetPc ∧ s.cfg = cfg ∧ s.regs = regs ∧ s.psr = psr ∧
    (∀ (a : Addr) (v : Byte), image.Pairwise (fun c d => c.1 ≠ d.1) → (a.toNat, v) ∈ image → s.byteAt a = some v) ∧
    (∀ a : Addr, (∀ c ∈ image, c.1 ≠ a.toNat) → s.byteAt a = none) ∧
    ∀ a : Addr, s.modified a = false

/-- The invariant holds at reset, of `State.reset` (the model's own instance, log entries 1 and 2) and of every machine
instance (R26, R280). -/
def Obligations.InvariantAtReset : Prop :=
  State.reset.Inv ∧ ∀ (cfg : Config) (image : List Host.Cell) (regs : Regs) (psr : Byte) (requests : List Byte),
    (State.resetWith cfg image regs psr requests).Inv

/-! ## Arithmetic -/

/-- R111: INC Rn. -/
def Obligations.IncIncrementsItsRegister : Prop :=
  ∀ (n : Reg) (s : State),
    EncodedAs (.inc n) [0x00 + n.number] ∧ clocks (.inc n) = .always 1 ∧
    NextWith (exec (.inc n) s) fun t =>
      SumWritten n ((s.reg n).toNat + 1) t ∧ MovedOn 1 s t ∧ OnlyRegsAndFlags [n] [nBit, cBit, zBit] s t

/-- R112 and R121: ADC Rn adds the carry, ADD Rn does not read it. -/
def Obligations.AddAndAdcWriteTheSum : Prop :=
  ∀ (n : Reg) (s : State),
    (EncodedAs (.adc n) [0x08 + n.number] ∧ clocks (.adc n) = .always 1 ∧
      NextWith (exec (.adc n) s) fun t =>
        SumWritten .r0 ((s.reg .r0).toNat + (s.reg n).toNat + (s.flag cBit).toNat) t ∧ MovedOn 1 s t ∧
        OnlyRegsAndFlags [.r0] [nBit, cBit, zBit] s t) ∧
    (EncodedAs (.add n) [0x50 + n.number] ∧ clocks (.add n) = .always 1 ∧
      NextWith (exec (.add n) s) fun t =>
        SumWritten .r0 ((s.reg .r0).toNat + (s.reg n).toNat) t ∧ MovedOn 1 s t ∧
        OnlyRegsAndFlags [.r0] [nBit, cBit, zBit] s t)

/-- R119: DEC Rn adds 0xFF, so C is clear exactly when 0x00 is decremented. -/
def Obligations.DecAddsAllOnes : Prop :=
  ∀ (n : Reg) (s : State),
    EncodedAs (.dec n) [0x40 + n.number] ∧ clocks (.dec n) = .always 1 ∧
    NextWith (exec (.dec n) s) fun t =>
      SumWritten n ((s.reg n).toNat + 255) t ∧ t.flag cBit = decide (s.reg n ≠ 0) ∧ MovedOn 1 s t ∧
      OnlyRegsAndFlags [n] [nBit, cBit, zBit] s t

/-- SBC Rn on a core that adds the carry, at both widths of "(-Rn)". The spec's decisions D5 and D6 (log entry 9). -/
def Obligations.SbcSubtractsAndAddsTheCarry : Prop :=
  ∀ (n : Reg) (s : State), s.cfg.sbcCarry = .added →
    EncodedAs (.sbc n) [0x48 + n.number] ∧ clocks (.sbc n) = .always 1 ∧
    NextWith (exec (.sbc n) s) fun t =>
      (t.reg .r0).toNat = ((s.reg .r0).toNat + 256 - (s.reg n).toNat + (s.flag cBit).toNat) % 256 ∧
      (s.cfg.subNegWidth = .eight →
        t.flag cBit = decide (256 ≤ (s.reg .r0).toNat + (256 - (s.reg n).toNat) % 256 + (s.flag cBit).toNat)) ∧
      (s.cfg.subNegWidth = .nine →
        t.flag cBit = decide (256 ≤ ((s.reg .r0).toNat + 512 - (s.reg n).toNat + (s.flag cBit).toNat) % 512)) ∧
      SignAndZeroOf (t.reg .r0) t ∧ MovedOn 1 s t ∧ OnlyRegsAndFlags [.r0] [nBit, cBit, zBit] s t

/-- SBC Rn on a core that subtracts the carry, the reading of the title that C3 asks to keep expressible: the difference,
N and Z; the carry out is a free value, whatever it is (log entry 9). -/
def Obligations.SbcSubtractingTheCarry : Prop :=
  ∀ (n : Reg) (s : State), s.cfg.sbcCarry = .subtracted →
    NextWith (exec (.sbc n) s) fun t =>
      (t.reg .r0).toNat = ((s.reg .r0).toNat + 512 - (s.reg n).toNat - (s.flag cBit).toNat) % 256 ∧
      t.flag cBit = Config.freeSbcCarry (s.reg .r0) (s.reg n) (s.flag cBit) ∧
      SignAndZeroOf (t.reg .r0) t ∧ MovedOn 1 s t ∧ OnlyRegsAndFlags [.r0] [nBit, cBit, zBit] s t

/-- CMP Rn: Z tells equality, C is the complement of a borrow (0 for Rn = 0) at width 8 and a borrow at width 9, and no
register changes. The width is the spec's decision D5 (log entry 9). -/
def Obligations.CmpComparesWithoutWriting : Prop :=
  ∀ (n : Reg) (s : State),
    EncodedAs (.cmp n) [0x78 + n.number] ∧ clocks (.cmp n) = .always 1 ∧
    NextWith (exec (.cmp n) s) fun t =>
      t.flag zBit = decide (s.reg .r0 = s.reg n) ∧
      t.flag nBit = decide (128 ≤ ((s.reg .r0).toNat + 256 - (s.reg n).toNat) % 256) ∧
      (s.cfg.subNegWidth = .eight → t.flag cBit = decide (s.reg n ≠ 0 ∧ (s.reg n).toNat ≤ (s.reg .r0).toNat)) ∧
      (s.cfg.subNegWidth = .nine → t.flag cBit = decide ((s.reg .r0).toNat < (s.reg n).toNat)) ∧
      MovedOn 1 s t ∧ OnlyRegsAndFlags [] [nBit, cBit, zBit] s t

/-- R161: MUL Rn writes the exact unsigned product of the old Rn and R0 to R1:R0, also where Rn is R0 or R1 (that both
factors are read first is the spec's own reading of the single assignment). -/
def Obligations.MulWritesTheExactProduct : Prop :=
  ∀ (n : Reg) (s : State),
    EncodedAs (.mul n) [0xB0 + n.number] ∧ clocks (.mul n) = .always 2 ∧
    NextWith (exec (.mul n) s) fun t =>
      (t.pair .p0).toNat = (s.reg n).toNat * (s.reg .r0).toNat ∧
      t.flag zBit = decide ((s.reg n).toNat * (s.reg .r0).toNat = 0) ∧ MovedOn 1 s t ∧
      OnlyRegsAndFlags [.r0, .r1] [zBit] s t

/-- R190: UPP Re increments the 16-bit pair and writes only C, set exactly when the pair was 0xFFFF. -/
def Obligations.UppIncrementsThePair : Prop :=
  ∀ (e : Pair) (s : State),
    EncodedAs (.upp e) [0xC0 + e.number] ∧ clocks (.upp e) = .always 2 ∧
    NextWith (exec (.upp e) s) fun t =>
      (t.pair e).toNat = ((s.pair e).toNat + 1) % 65536 ∧ t.flag cBit = decide (s.pair e = 0xFFFF) ∧
      MovedOn 1 s t ∧ OnlyRegsAndFlags [evenReg e, oddReg e] [cBit] s t

/-! ## Logic, rotation, transfer and PSR bits -/

/-- R114, R115, R116: OR, AND and XOR, bit by bit into R0. -/
def Obligations.LogicActsBitByBit : Prop :=
  ∀ (n : Reg) (s : State),
    (EncodedAs (.or n) [0x18 + n.number] ∧ clocks (.or n) = .always 1 ∧
      NextWith (exec (.or n) s) fun t =>
        (∀ k, bitOf (t.reg .r0) k = (bitOf (s.reg .r0) k || bitOf (s.reg n) k)) ∧ SignAndZeroOf (t.reg .r0) t ∧
        MovedOn 1 s t ∧ OnlyRegsAndFlags [.r0] [nBit, zBit] s t) ∧
    (EncodedAs (.and n) [0x20 + n.number] ∧ clocks (.and n) = .always 1 ∧
      NextWith (exec (.and n) s) fun t =>
        (∀ k, bitOf (t.reg .r0) k = (bitOf (s.reg .r0) k && bitOf (s.reg n) k)) ∧ SignAndZeroOf (t.reg .r0) t ∧
        MovedOn 1 s t ∧ OnlyRegsAndFlags [.r0] [nBit, zBit] s t) ∧
    (EncodedAs (.xor n) [0x28 + n.number] ∧ clocks (.xor n) = .always 1 ∧
      NextWith (exec (.xor n) s) fun t =>
        (∀ k, bitOf (t.reg .r0) k = (bitOf (s.reg .r0) k != bitOf (s.reg n) k)) ∧ SignAndZeroOf (t.reg .r0) t ∧
        MovedOn 1 s t ∧ OnlyRegsAndFlags [.r0] [nBit, zBit] s t)

/-- R113, R125: TX0 Rn copies Rn to R0, T0X Rn copies R0 to Rn. -/
def Obligations.TransfersCopyAndSetNZ : Prop :=
  ∀ (n : Reg) (s : State),
    (EncodedAs (.tx0 n) [0x10 + n.number] ∧ clocks (.tx0 n) = .always 1 ∧
      NextWith (exec (.tx0 n) s) fun t =>
        t.reg .r0 = s.reg n ∧ SignAndZeroOf (s.reg n) t ∧ MovedOn 1 s t ∧ OnlyRegsAndFlags [.r0] [nBit, zBit] s t) ∧
    (EncodedAs (.t0x n) [0x70 + n.number] ∧ clocks (.t0x n) = .always 1 ∧
      NextWith (exec (.t0x n) s) fun t =>
        t.reg n = s.reg .r0 ∧ SignAndZeroOf (s.reg .r0) t ∧ MovedOn 1 s t ∧ OnlyRegsAndFlags [n] [nBit, zBit] s t)

/-- R117, R118: ROL and ROR rotate C and Rn as nine bits. -/
def Obligations.RotationsGoThroughTheCarry : Prop :=
  ∀ (n : Reg) (s : State),
    (EncodedAs (.rol n) [0x30 + n.number] ∧ clocks (.rol n) = .always 1 ∧
      NextWith (exec (.rol n) s) fun t =>
        (t.reg n).toNat = (2 * (s.reg n).toNat + (s.flag cBit).toNat) % 256 ∧
        t.flag cBit = decide (128 ≤ (s.reg n).toNat) ∧ SignAndZeroOf (t.reg n) t ∧ MovedOn 1 s t ∧
        OnlyRegsAndFlags [n] [nBit, cBit, zBit] s t) ∧
    (EncodedAs (.ror n) [0x38 + n.number] ∧ clocks (.ror n) = .always 1 ∧
      NextWith (exec (.ror n) s) fun t =>
        (t.reg n).toNat = (s.reg n).toNat / 2 + 128 * (s.flag cBit).toNat ∧
        t.flag cBit = decide ((s.reg n).toNat % 2 = 1) ∧ SignAndZeroOf (t.reg n) t ∧ MovedOn 1 s t ∧
        OnlyRegsAndFlags [n] [nBit, cBit, zBit] s t)

/-- R117: nine ROLs restore the register and the carry; so do nine RORs. -/
def Obligations.NineRotationsRestore : Prop :=
  ∀ (n : Reg) (s : State) (i : Instr), i = .rol n ∨ i = .ror n →
    NextWith (repeatExec 9 i s) fun t =>
      t.regs = s.regs ∧ t.flag cBit = s.flag cBit ∧ t.pc = s.pc + 9 ∧ OnlyRegsAndFlags [] [nBit, zBit] s t

/-- R122, R124: STP n and CLP n write exactly bit n of PSR. -/
def Obligations.StpAndClpWriteOneBit : Prop :=
  ∀ (n : BitIndex) (s : State),
    (EncodedAs (.stp n) [0x58 + indexNumber n] ∧ clocks (.stp n) = .always 1 ∧
      NextWith (exec (.stp n) s) fun t => t.flag n = true ∧ MovedOn 1 s t ∧ OnlyRegsAndFlags [] [n] s t) ∧
    (EncodedAs (.clp n) [0x68 + indexNumber n] ∧ clocks (.clp n) = .always 1 ∧
      NextWith (exec (.clp n) s) fun t => t.flag n = false ∧ MovedOn 1 s t ∧ OnlyRegsAndFlags [] [n] s t)

/-- R123: BTT n sets Z to the complement of bit n of R0 and N to its bit 7. -/
def Obligations.BttTestsOneBitOfR0 : Prop :=
  ∀ (n : BitIndex) (s : State),
    EncodedAs (.btt n) [0x60 + indexNumber n] ∧ clocks (.btt n) = .always 1 ∧
    NextWith (exec (.btt n) s) fun t =>
      t.flag zBit = (!bitOf (s.reg .r0) n) ∧ t.flag nBit = bitOf (s.reg .r0) 7 ∧ MovedOn 1 s t ∧
      OnlyRegsAndFlags [] [nBit, zBit] s t

/-! ## Stack -/

/-- PSH Rn stores Rn below the stack (STACK wraps at 0: the spec's decision D3, log entry 11). -/
def Obligations.PshStoresBelowTheStack : Prop :=
  ∀ (n : Reg) (s : State), Writable s (s.sp - 1) →
    EncodedAs (.psh n) [0x80 + n.number] ∧ clocks (.psh n) = .always 3 ∧
    NextWith (exec (.psh n) s) fun t =>
      t.sp = s.sp - 1 ∧ Wrote (s.sp - 1) (s.reg n) s t ∧ MovedOn 1 s t ∧ Frame [] [] [s.sp - 1] s t ∧
      t.freeCount = s.freeCount

/-- POP Rn reads at STACK and sets no flag (STACK wraps at 0xFFFF: the spec's decision D3, log entry 11). -/
def Obligations.PopReadsAtTheStack : Prop :=
  ∀ (n : Reg) (s : State) (v : Byte) (used : Nat), ReadsAs s (s.byteAt s.sp) s.freeCount s.sp v used →
    EncodedAs (.pop n) [0x88 + n.number] ∧ clocks (.pop n) = .always 3 ∧
    NextWith (exec (.pop n) s) fun t =>
      t.reg n = v ∧ t.sp = s.sp + 1 ∧ MovedOn 1 s t ∧ Frame [n] [] [] s t ∧ t.freeCount = used

/-- R164: RSP. -/
def Obligations.RspSetsTheStackPointer : Prop :=
  ∀ s : State,
    EncodedAs .rsp [0xB8] ∧ clocks .rsp = .always 1 ∧
    NextWith (exec .rsp s) fun t =>
      (s.cfg.allowStackAddressMove = true → t.sp = word16 (s.reg .r1) (s.reg .r0)) ∧
      (s.cfg.allowStackAddressMove = false → t.sp = 0x007F) ∧ MovedOn 1 s t ∧ Frame [] [] [] s t ∧
      t.freeCount = s.freeCount

/-- R59 (c), R146: a push followed by a pop gives the pushed byte and restores STACK (decision D20 for R59, D3 for the
wrap: log entry 11). -/
def Obligations.PopAfterPushGivesTheByte : Prop :=
  ∀ (n m : Reg) (s : State), s.kindAt (s.sp - 1) = .plain →
    ∃ t, exec (.psh n) s = .next t ∧
      NextWith (exec (.pop m) t) fun u => u.reg m = s.reg n ∧ u.sp = s.sp ∧ Frame [m] [] [s.sp - 1] s u

/-! ## Control transfer -/

/-- BR0 and BR1, taken and not taken, from the branch's own address (R90; the wrap is the spec's decision D2, log entry
11). -/
def Obligations.BranchesTestOneBit : Prop :=
  ∀ (n : BitIndex) (o : Byte) (s : State),
    (EncodedAs (.br0 n o) [0x90 + indexNumber n, o] ∧ clocks (.br0 n o) = .always 3 ∧
      NextWith (exec (.br0 n o) s) fun t =>
        t.pc = (if s.flag n = false then s.pc + o.signExtend 16 else s.pc + 2) ∧ OnlyRegsAndFlags [] [] s t) ∧
    (EncodedAs (.br1 n o) [0x98 + indexNumber n, o] ∧ clocks (.br1 n o) = .always 3 ∧
      NextWith (exec (.br1 n o) s) fun t =>
        t.pc = (if s.flag n = true then s.pc + o.signExtend 16 else s.pc + 2) ∧ OnlyRegsAndFlags [] [] s t)

/-- DBNZ Rn decrements as DEC does and branches unless the result is zero (the wrap of the target is the spec's decision
D2, log entry 11). -/
def Obligations.DbnzDecrementsAndBranches : Prop :=
  ∀ (n : Reg) (o : Byte) (s : State),
    EncodedAs (.dbnz n o) [0xA0 + n.number, o] ∧ clocks (.dbnz n o) = .always 3 ∧
    NextWith (exec (.dbnz n o) s) fun t =>
      SumWritten n ((s.reg n).toNat + 255) t ∧
      t.pc = (if s.reg n = 1 then s.pc + 2 else s.pc + o.signExtend 16) ∧
      OnlyRegsAndFlags [n] [nBit, cBit, zBit] s t

/-- JMP addr (the order of its address bytes is the spec's decision D1, log entry 10) and BRK (R167), which does
nothing. -/
def Obligations.JmpJumpsAndBrkDoesNothing : Prop :=
  ∀ s : State,
    (∀ addr : Addr, EncodedAs (.jmp addr) [0xBC, lo8 addr, hi8 addr] ∧ clocks (.jmp addr) = .always 3 ∧
      NextWith (exec (.jmp addr) s) fun t => t.pc = addr ∧ OnlyRegsAndFlags [] [] s t) ∧
    (EncodedAs .brk [0xBB] ∧ clocks .brk = .always 1 ∧
      NextWith (exec .brk s) fun t => MovedOn 1 s t ∧ OnlyRegsAndFlags [] [] s t)

/-- JSR addr pushes the address of the following instruction, low byte at the lower address (decisions D1, D2, D3: log
entries 10 and 11). -/
def Obligations.JsrPushesTheReturnAddress : Prop :=
  ∀ (addr : Addr) (s : State), Writable s (s.sp - 1) → Writable s (s.sp - 2) →
    EncodedAs (.jsr addr) [0xBF, lo8 addr, hi8 addr] ∧ clocks (.jsr addr) = .always 5 ∧
    NextWith (exec (.jsr addr) s) fun t =>
      t.pc = addr ∧ t.sp = s.sp - 2 ∧ Wrote (s.sp - 1) (hi8 (s.pc + 3)) s t ∧ Wrote (s.sp - 2) (lo8 (s.pc + 3)) s t ∧
      Frame [] [] [s.sp - 1, s.sp - 2] s t ∧ t.freeCount = s.freeCount

/-- RTS pops the address it continues at (the order of the two reads is the spec's decision D20, the wrap D3: log entry
11). -/
def Obligations.RtsPopsTheProgramCounter : Prop :=
  ∀ (s : State) (lo hi : Byte) (k used : Nat),
    ReadsAs s (s.byteAt s.sp) s.freeCount s.sp lo k → ReadsAs s (s.byteAt (s.sp + 1)) k (s.sp + 1) hi used →
    EncodedAs .rts [0xB9] ∧ clocks .rts = .always 5 ∧
    NextWith (exec .rts s) fun t =>
      t.pc = word16 hi lo ∧ t.sp = s.sp + 2 ∧ Frame [] [] [] s t ∧ t.freeCount = used

/-- R146, R163: a subroutine call and return: RTS after JSR resumes at the following instruction with STACK restored
(wraps: D2, D3, log entry 11). -/
def Obligations.RtsAfterJsrResumes : Prop :=
  ∀ (addr : Addr) (s : State), s.kindAt (s.sp - 1) = .plain → s.kindAt (s.sp - 2) = .plain →
    ∃ t, exec (.jsr addr) s = .next t ∧ t.pc = addr ∧
      NextWith (exec .rts t) fun u => u.pc = s.pc + 3 ∧ u.sp = s.sp ∧ Frame [] [] [s.sp - 1, s.sp - 2] s u

/-! ## Interrupts -/

/-- INT n, accepted: the entry sequence with the configured return address (R160, R252, R253; decisions D3, D4, D7: log
entries 3 and 11). -/
def Obligations.AcceptedIntEntersItsHandler : Prop :=
  ∀ (n : BitIndex) (s : State) (lo hi : Byte) (used : Nat),
    n = 0 ∨ (s.flag iBit = true ∧ bitOf s.imr n = true) →
    EntryPossible s n (s.pc + s.cfg.intReturnOffset.setWidth 16) lo hi used →
    EncodedAs (.int n) [0xA8 + indexNumber n] ∧ clocks (.int n) = .whenTaken 7 ∧
    NextWith (exec (.int n) s) fun t => Entered (s.pc + s.cfg.intReturnOffset.setWidth 16) lo hi used s t

/-- R160: INT n that is not accepted does nothing and is forgotten (the forgetting is the spec's decision D8, log entry
15). -/
def Obligations.RefusedIntDoesNothing : Prop :=
  ∀ (n : BitIndex) (s : State), ¬(n = 0 ∨ (s.flag iBit = true ∧ bitOf s.imr n = true)) →
    NextWith (exec (.int n) s) fun t => MovedOn 1 s t ∧ OnlyRegsAndFlags [] [] s t

/-- RTI pops the address and then all eight bits of PSR (R166, R255; the order of the reads is decision D20, the wrap
D3: log entry 11). -/
def Obligations.RtiPopsAddressAndPsr : Prop :=
  ∀ (s : State) (lo hi p : Byte) (k m used : Nat),
    ReadsAs s (s.byteAt s.sp) s.freeCount s.sp lo k → ReadsAs s (s.byteAt (s.sp + 1)) k (s.sp + 1) hi m →
    ReadsAs s (s.byteAt (s.sp + 2)) m (s.sp + 2) p used →
    EncodedAs .rti [0xBA] ∧ clocks .rti = .always 5 ∧
    NextWith (exec .rti s) fun t =>
      t.pc = word16 hi lo ∧ t.psr = p ∧ t.sp = s.sp + 3 ∧
      Frame [] [0, 1, 2, 3, 4, 5, 6, 7] [] s t ∧ t.freeCount = used

/-- R166 "RTI is the exact inverse of the taken branch of INT": after an accepted INT on a plain stack, RTI resumes at
the saved address with all of PSR, STACK and every register as before (decisions D3 and D7: log entries 3 and 11). -/
def Obligations.RtiUndoesInt : Prop :=
  ∀ (n : BitIndex) (s : State) (lo hi : Byte) (used : Nat),
    s.accepts n = true → s.kindAt (s.sp - 1) = .plain → s.kindAt (s.sp - 2) = .plain → s.kindAt (s.sp - 3) = .plain →
    EntryPossible s n s.intReturn lo hi used →
    ∃ t, exec (.int n) s = .next t ∧ t.pc = word16 hi lo ∧
      NextWith (exec .rti t) fun u =>
        u.pc = s.intReturn ∧ u.psr = s.psr ∧ u.sp = s.sp ∧ Frame [] [] [s.sp - 1, s.sp - 2, s.sp - 3] s u

/-- R169: SMSK writes R0 with bit 0 set to the mask register. -/
def Obligations.SmskWritesTheMask : Prop :=
  ∀ s : State,
    EncodedAs .smsk [0xBD] ∧ clocks .smsk = .always 1 ∧
    NextWith (exec .smsk s) fun t =>
      (∀ n, bitOf t.imr n = (decide (n = 0) || bitOf (s.reg .r0) n)) ∧ MovedOn 1 s t ∧
      KeepsRegs [] s t ∧ KeepsFlags [] s t ∧ KeepsMemory [] s t ∧ KeepsInputs s t ∧ t.sp = s.sp ∧
      t.freeCount = s.freeCount

/-- R170: GMSK loads R0 from the mask register, N from it, and Z with the constant 0. -/
def Obligations.GmskReadsTheMask : Prop :=
  ∀ s : State,
    EncodedAs .gmsk [0xBE] ∧ clocks .gmsk = .always 1 ∧
    NextWith (exec .gmsk s) fun t =>
      t.reg .r0 = s.imr ∧ t.flag nBit = bitOf s.imr 7 ∧ t.flag zBit = false ∧ MovedOn 1 s t ∧
      OnlyRegsAndFlags [.r0] [nBit, zBit] s t ∧ (s.Inv → t.reg .r0 ≠ 0)

/-! ## Loads and stores -/

/-- STA Rn, addr (the order of its address bytes is the spec's decision D1, log entry 10). -/
def Obligations.StaStoresAtItsAddress : Prop :=
  ∀ (n : Reg) (addr : Addr) (s : State), Writable s addr →
    EncodedAs (.sta n addr) [0xC8 + n.number, lo8 addr, hi8 addr] ∧ clocks (.sta n addr) = .always 4 ∧
    NextWith (exec (.sta n addr) s) fun t =>
      Wrote addr (s.reg n) s t ∧ MovedOn 3 s t ∧ Frame [] [] [addr] s t ∧ t.sp = s.sp ∧ t.freeCount = s.freeCount

/-- STX and STO store R0 at the pair, or the pair plus the unsigned offset, and then add A to the pair; no flag changes
(the wraps are the spec's decision D4, log entry 11). -/
def Obligations.IndexedStoresWriteR0 : Prop :=
  ∀ (e : Pair) (a : Bool) (o : Byte) (s : State), (a = true → s.cfg.autoIncrement = true) →
    (Writable s (s.indexedAddr e) →
      EncodedAs (.stx e a) [0xD0 + e.number + autoNumber a] ∧ clocks (.stx e a) = .always 3 ∧
      s.indexedAddr e = s.pair e ∧
      NextWith (exec (.stx e a) s) fun t =>
        Wrote (s.indexedAddr e) (s.reg .r0) s t ∧ t.pair e = s.pair e + (if a then 1 else 0) ∧ MovedOn 1 s t ∧
        Frame [evenReg e, oddReg e] [] [s.indexedAddr e] s t ∧ t.sp = s.sp ∧ t.freeCount = s.freeCount) ∧
    (Writable s (s.offsetAddr e o) →
      EncodedAs (.sto e a o) [0xD8 + e.number + autoNumber a, o] ∧ clocks (.sto e a o) = .always 4 ∧
      (s.offsetAddr e o).toNat = ((s.pair e).toNat + o.toNat) % 65536 ∧
      NextWith (exec (.sto e a o) s) fun t =>
        Wrote (s.offsetAddr e o) (s.reg .r0) s t ∧ t.pair e = s.pair e + (if a then 1 else 0) ∧ MovedOn 2 s t ∧
        Frame [evenReg e, oddReg e] [] [s.offsetAddr e o] s t ∧ t.sp = s.sp ∧ t.freeCount = s.freeCount)

/-- R195: LDI Rn, imm8. -/
def Obligations.LdiLoadsItsImmediate : Prop :=
  ∀ (n : Reg) (imm : Byte) (s : State),
    EncodedAs (.ldi n imm) [0xE0 + n.number, imm] ∧ clocks (.ldi n imm) = .always 2 ∧
    NextWith (exec (.ldi n imm) s) fun t =>
      t.reg n = imm ∧ SignAndZeroOf imm t ∧ MovedOn 2 s t ∧ OnlyRegsAndFlags [n] [nBit, zBit] s t

/-- LDA Rn, addr (the order of its address bytes is the spec's decision D1, log entry 10; a device answers a free value,
log entry 7). -/
def Obligations.LdaLoadsFromItsAddress : Prop :=
  ∀ (n : Reg) (addr : Addr) (s : State) (v : Byte) (used : Nat),
    ReadsAs s (s.byteAt addr) s.freeCount addr v used →
    EncodedAs (.lda n addr) [0xE8 + n.number, lo8 addr, hi8 addr] ∧ clocks (.lda n addr) = .always 4 ∧
    NextWith (exec (.lda n addr) s) fun t =>
      t.reg n = v ∧ SignAndZeroOf v t ∧ MovedOn 3 s t ∧ Frame [n] [nBit, zBit] [] s t ∧ t.sp = s.sp ∧
      t.freeCount = used

/-- LDX and LDO load R0 with N and Z, then add A to the pair; where the pair is R1:R0 it is the loaded byte that A is
added to (decisions D4 and D11: log entries 11 and 4). -/
def Obligations.IndexedLoadsReadIntoR0 : Prop :=
  ∀ (e : Pair) (a : Bool) (o : Byte) (s : State) (v : Byte) (used : Nat), (a = true → s.cfg.autoIncrement = true) →
    (ReadsAs s (s.byteAt (s.indexedAddr e)) s.freeCount (s.indexedAddr e) v used →
      EncodedAs (.ldx e a) [0xF0 + e.number + autoNumber a] ∧ clocks (.ldx e a) = .always 3 ∧
      s.indexedAddr e = s.pair e ∧
      NextWith (exec (.ldx e a) s) fun t =>
        t.pair e = (if e = .p0 then word16 (s.reg .r1) v else s.pair e) + (if a then 1 else 0) ∧
        (e ≠ .p0 → t.reg .r0 = v) ∧ SignAndZeroOf v t ∧ MovedOn 1 s t ∧
        Frame [.r0, evenReg e, oddReg e] [nBit, zBit] [] s t ∧ t.sp = s.sp ∧ t.freeCount = used) ∧
    (ReadsAs s (s.byteAt (s.offsetAddr e o)) s.freeCount (s.offsetAddr e o) v used →
      EncodedAs (.ldo e a o) [0xF8 + e.number + autoNumber a, o] ∧ clocks (.ldo e a o) = .always 4 ∧
      (s.offsetAddr e o).toNat = ((s.pair e).toNat + o.toNat) % 65536 ∧
      NextWith (exec (.ldo e a o) s) fun t =>
        t.pair e = (if e = .p0 then word16 (s.reg .r1) v else s.pair e) + (if a then 1 else 0) ∧
        (e ≠ .p0 → t.reg .r0 = v) ∧ SignAndZeroOf v t ∧ MovedOn 2 s t ∧
        Frame [.r0, evenReg e, oddReg e] [nBit, zBit] [] s t ∧ t.sp = s.sp ∧ t.freeCount = used)

/-- R200 (the spec's decision D10, log entry 8): on a core without auto-increment the forms with A = 1 are refused. -/
def Obligations.AutoIncrementFormsNeedTheOption : Prop :=
  ∀ (e : Pair) (o : Byte) (s : State), s.cfg.autoIncrement = false →
    exec (.stx e true) s = .refused .autoincrementNotImplemented ∧
    exec (.sto e true o) s = .refused .autoincrementNotImplemented ∧
    exec (.ldx e true) s = .refused .autoincrementNotImplemented ∧
    exec (.ldo e true o) s = .refused .autoincrementNotImplemented

/-- R57, R66 (decisions D19 and D27, log entries 5 and 7; that a store to a read-only address is refused is the model's
choice, log entry 16): where the one memory access of an instruction stops, on an unwritten byte, an absent address or a
read-only one, the instruction stops with the same fault or refusal. -/
def Obligations.SingleAccessStopsItsInstruction : Prop :=
  ∀ (s : State) (n : Reg) (e : Pair) (a : Bool) (o : Byte) (addr : Addr) (h : Halt),
    (readStop s (s.byteAt s.sp) s.sp = some h → exec (.pop n) s = stopped h) ∧
    (readStop s (s.byteAt addr) addr = some h → exec (.lda n addr) s = stopped h) ∧
    (writeStop s (s.sp - 1) = some h → exec (.psh n) s = stopped h) ∧
    (writeStop s addr = some h → exec (.sta n addr) s = stopped h) ∧
    ((a = true → s.cfg.autoIncrement = true) →
      (readStop s (s.byteAt (s.indexedAddr e)) (s.indexedAddr e) = some h → exec (.ldx e a) s = stopped h) ∧
      (readStop s (s.byteAt (s.offsetAddr e o)) (s.offsetAddr e o) = some h → exec (.ldo e a o) s = stopped h) ∧
      (writeStop s (s.indexedAddr e) = some h → exec (.stx e a) s = stopped h) ∧
      (writeStop s (s.offsetAddr e o) = some h → exec (.sto e a o) s = stopped h))

/-- R57, R65, R66 (decisions D19, D20 and D27, log entries 5, 7 and 11; read-only addresses: log entry 16): JSR, RTS,
RTI, an accepted INT and the entry of an external request (D12, log entry 13) stop at their first access that stops, in
the order of R65. -/
def Obligations.FirstBadAccessStopsTheSequence : Prop :=
  ∀ (s : State) (h : Halt),
    (∀ addr : Addr,
      (writeStop s (s.sp - 1) = some h → exec (.jsr addr) s = stopped h) ∧
      (Writable s (s.sp - 1) → writeStop s (s.sp - 2) = some h → exec (.jsr addr) s = stopped h)) ∧
    ((readStop s (s.byteAt s.sp) s.sp = some h → exec .rts s = stopped h ∧ exec .rti s = stopped h) ∧
      (readStop s (s.byteAt s.sp) s.sp = none → readStop s (s.byteAt (s.sp + 1)) (s.sp + 1) = some h →
        exec .rts s = stopped h ∧ exec .rti s = stopped h) ∧
      (readStop s (s.byteAt s.sp) s.sp = none → readStop s (s.byteAt (s.sp + 1)) (s.sp + 1) = none →
        readStop s (s.byteAt (s.sp + 2)) (s.sp + 2) = some h → exec .rti s = stopped h)) ∧
    (∀ n : BitIndex, s.accepts n = true → entryStop s n s.intReturn = some h → exec (.int n) s = stopped h) ∧
    (∀ n : BitIndex, s.takenRequest = some n → entryStop s n s.pc = some h → step s = stopped h)

/-! ## Pseudo-mnemonics -/

/-- R220: a pseudo-mnemonic of one instruction acts as that instruction. -/
def Obligations.AliasActsAsItsInstruction : Prop :=
  ∀ (i j : Instr) (s : State), expansion i = [j] → exec i s = exec j s

/-- R221 to R229 and R242: the one-byte pseudo-mnemonics. -/
def Obligations.OneBytePseudoMnemonics : Prop :=
  ∀ s : State,
    (∀ p ∈ [(Instr.sti, iBit, true, (0x5B : Byte)), (.cli, iBit, false, 0x6B), (.stz, zBit, true, 0x58),
            (.clz, zBit, false, 0x68), (.stn, nBit, true, 0x5A), (.cln, nBit, false, 0x6A), (.stc, cBit, true, 0x59),
            (.clc, cBit, false, 0x69)],
      encode p.1 = [p.2.2.2] ∧ clocks p.1 = .always 1 ∧
      NextWith (exec p.1 s) fun t => t.flag p.2.1 = p.2.2.1 ∧ MovedOn 1 s t ∧ OnlyRegsAndFlags [] [p.2.1] s t) ∧
    (encode .nop = [0xBB] ∧ clocks .nop = .always 1 ∧
      NextWith (exec .nop s) fun t => MovedOn 1 s t ∧ OnlyRegsAndFlags [] [] s t) ∧
    (encode .clr = [0x28] ∧ clocks .clr = .always 1 ∧
      NextWith (exec .clr s) fun t =>
        t.reg .r0 = 0 ∧ t.flag nBit = false ∧ t.flag zBit = true ∧ MovedOn 1 s t ∧
        OnlyRegsAndFlags [.r0] [nBit, zBit] s t)

/-- R230 to R241: the conditional branches and the net effect of the conditional jumps (wraps and address bytes:
decisions D1 and D2, log entries 10 and 11). -/
def Obligations.ConditionalPseudoMnemonics : Prop :=
  ∀ (i : Instr) (n : BitIndex) (want : Bool) (s : State),
    (∀ o : Byte, conditionalBranch i = some (n, want, o) →
      clocks i = .always 3 ∧ NextWith (exec i s) fun t =>
        t.pc = (if s.flag n = want then s.pc + o.signExtend 16 else s.pc + 2) ∧ OnlyRegsAndFlags [] [] s t) ∧
    (∀ addr : Addr, conditionalJump i = some (n, want, addr) →
      clocks i = .skippedOrMade 3 6 ∧ NextWith (exec i s) fun t =>
        t.pc = (if s.flag n = want then addr else s.pc + 5) ∧ OnlyRegsAndFlags [] [] s t)

/-- R243: on a core without external requests, the five bytes of a conditional jump, in memory at the program counter,
have its net effect: in one step where the jump is not made, in two where it is (D1, D2: log entries 10 and 11). -/
def Obligations.ConditionalJumpIsItsTwoSteps : Prop :=
  ∀ (i : Instr) (n : BitIndex) (want : Bool) (addr : Addr) (s : State),
    conditionalJump i = some (n, want, addr) → s.cfg.extInterrupts = false → BytesAt s s.pc (encode i) →
    (s.flag n ≠ want → step s = exec i s) ∧
    (s.flag n = want → ∃ t, step s = .next t ∧ t.pc = s.pc + 2 ∧ step t = exec i s)

/-! ## The whole machine -/

/-- AN INVARIANT THAT EVERY STEP KEEPS: canonical memory, canonical set of stored addresses, and mask bit 0 "always set
to 1" (R26), over instructions and external interrupts alike. The canonical forms are the model's own (log entries 5 and
6). -/
def Obligations.EveryStepKeepsTheInvariant : Prop :=
  ∀ s t : State, s.Inv → step s = .next t → t.Inv

/-- R31: whatever instruction completes, it writes no bit of PSR outside its row of the table; so GP1..GP4 are written
by STP, CLP and RTI only (R24). -/
def Obligations.OnlyTheTableWritesFlags : Prop :=
  (∀ (i : Instr) (s t : State), exec i s = .next t → KeepsFlags (flagsWritten i) s t) ∧
  ∀ (i : Instr) (s t : State) (g : BitIndex), exec i s = .next t → 4 ≤ g.val → t.flag g ≠ s.flag g →
    i = .stp g ∨ i = .clp g ∨ i = .rti

/-- R25, R26, R28, R50: whatever instruction completes, STACK is written only by PSH, POP, JSR, RTS, INT, RTI and RSP,
the mask register only by SMSK, a general register or a byte of memory only by the instructions that name it, and the
machine's parameters by none. -/
def Obligations.OnlyNamedInstructionsWriteState : Prop :=
  ∀ (i : Instr) (s t : State), exec i s = .next t →
    KeepsRegs (regsWritten i) s t ∧ KeepsMemory (addrsWritten s i) s t ∧ KeepsInputs s t ∧
    (t.sp ≠ s.sp → writesStackPointer i = true) ∧ (t.imr ≠ s.imr → i = .smsk)

/-- R26, R28, R257: over a whole step, the mask register changes only where the step executed SMSK, and the machine's
parameters never. -/
def Obligations.MaskChangesOnlyBySmsk : Prop :=
  ∀ s t : State, step s = .next t →
    t.cfg = s.cfg ∧ (t.imr ≠ s.imr → ∃ s1, s.takenRequest = none ∧ fetch s.pollRequests = .ok (.smsk, s1) ∧
      t.imr = s.reg .r0 ||| 1)
end

