-- ==== Sys2Proof/Laws/Bits.lean ====
section
/-! SUPPORT. The small lemmas of the bit-field helpers, and that every field decodes to what it encodes. -/

namespace Sys2Proof.Machine

theorem append_toNat_eq {m n : Nat} (x : BitVec m) (y : BitVec n) : (x ++ y).toNat = 2 ^ n * x.toNat + y.toNat := by
  rw [BitVec.toNat_append, ← Nat.shiftLeft_add_eq_or_of_lt y.isLt, Nat.shiftLeft_eq, Nat.mul_comm]

theorem word16_toNat (hi lo : Byte) : (word16 hi lo).toNat = 256 * hi.toNat + lo.toNat :=
  append_toNat_eq hi lo

theorem hi8_toNat (v : Addr) : (hi8 v).toNat = v.toNat / 256 := by
  have h := v.isLt
  simp only [hi8, BitVec.extractLsb'_toNat, Nat.shiftRight_eq_div_pow]
  omega

theorem lo8_toNat (v : Addr) : (lo8 v).toNat = v.toNat % 256 := by
  simp [lo8, BitVec.extractLsb'_toNat]

@[simp] theorem hi8_word16 (hi lo : Byte) : hi8 (word16 hi lo) = hi := by
  apply BitVec.eq_of_toNat_eq
  have := lo.isLt
  rw [hi8_toNat, word16_toNat]; omega

@[simp] theorem lo8_word16 (hi lo : Byte) : lo8 (word16 hi lo) = lo := by
  apply BitVec.eq_of_toNat_eq
  have := lo.isLt
  rw [lo8_toNat, word16_toNat]; omega

@[simp] theorem word16_hi8_lo8 (v : Addr) : word16 (hi8 v) (lo8 v) = v := by
  apply BitVec.eq_of_toNat_eq
  rw [word16_toNat, hi8_toNat, lo8_toNat]; omega

theorem opcodeField_toNat (b : Byte) : (opcodeField b).toNat = b.toNat / 8 := by
  have h := b.isLt
  simp only [opcodeField, BitVec.extractLsb'_toNat, Nat.shiftRight_eq_div_pow]
  omega

theorem subopField_toNat (b : Byte) : (subopField b).toNat = b.toNat % 8 := by
  simp [subopField, BitVec.extractLsb'_toNat]

theorem firstByte_toNat (o : BitVec 5) (f : BitVec 3) : (firstByte o f).toNat = 8 * o.toNat + f.toNat :=
  append_toNat_eq o f

@[simp] theorem opcodeField_firstByte (o : BitVec 5) (f : BitVec 3) : opcodeField (firstByte o f) = o := by
  apply BitVec.eq_of_toNat_eq
  have := f.isLt
  rw [opcodeField_toNat, firstByte_toNat]; omega

@[simp] theorem subopField_firstByte (o : BitVec 5) (f : BitVec 3) : subopField (firstByte o f) = f := by
  apply BitVec.eq_of_toNat_eq
  have := f.isLt
  rw [subopField_toNat, firstByte_toNat]; omega

/-- A first byte is put together from its two fields. -/
@[simp] theorem firstByte_fields (b : Byte) : firstByte (opcodeField b) (subopField b) = b := by
  apply BitVec.eq_of_toNat_eq
  rw [firstByte_toNat, opcodeField_toNat, subopField_toNat]; omega

end Sys2Proof.Machine

namespace Sys2Proof

@[simp] theorem regOf_regBits (n : Reg) : regOf (regBits n) = n := by cases n <;> rfl

@[simp] theorem regBits_regOf (f : BitVec 3) : regBits (regOf f) = f := by revert f; decide

@[simp] theorem indexOf_indexBits (n : BitIndex) : indexOf (indexBits n) = n := rfl

@[simp] theorem indexBits_indexOf (f : BitVec 3) : indexBits (indexOf f) = f := rfl

@[simp] theorem pairOf_pairAutoBits (e : Pair) (a : Bool) : pairOf (pairAutoBits e a) = e := by
  cases e <;> cases a <;> rfl

@[simp] theorem autoField_pairAutoBits (e : Pair) (a : Bool) : autoField (pairAutoBits e a) = a := by
  cases e <;> cases a <;> rfl

@[simp] theorem pairAutoBits_fields (f : BitVec 3) : pairAutoBits (pairOf f) (autoField f) = f := by
  revert f; decide

end Sys2Proof
end

