-- ==== Sys2Proof/Laws/Memory.lean ====
section
/-! SUPPORT. The laws of memory and of sets of addresses: a read after a write, the canonical form, and that every
operation keeps it. -/

namespace Sys2Proof.Machine

/-! ## Read after write -/

@[simp] theorem Memory.lookup_insert_same (m : List Host.Cell) (a : Nat) (v : Byte) :
    Memory.lookup (Memory.insert m a v) a = some v := by
  induction m with
  | nil => simp [Memory.insert, Memory.lookup]
  | cons c rest ih =>
    simp only [Memory.insert]
    split
    · simp [Memory.lookup]
    · split
      · simp [Memory.lookup]
      · simp_all [Memory.lookup]

theorem Memory.lookup_insert_other (m : List Host.Cell) {a b : Nat} (v : Byte) (h : b ≠ a) :
    Memory.lookup (Memory.insert m a v) b = Memory.lookup m b := by
  induction m with
  | nil => simp [Memory.insert, Memory.lookup, Ne.symm h]
  | cons c rest ih =>
    simp only [Memory.insert]
    split
    · simp [Memory.lookup, Ne.symm h]
    · split
      · rename_i e; subst e; simp [Memory.lookup, Ne.symm h]
      · simp [Memory.lookup, ih]

theorem Memory.lookup_insert (m : List Host.Cell) (a b : Nat) (v : Byte) :
    Memory.lookup (Memory.insert m a v) b = if b = a then some v else Memory.lookup m b := by
  by_cases h : b = a
  · subst h; simp
  · simp [h, Memory.lookup_insert_other m v h]

theorem AddressSet.has_insert (l : List Nat) (a b : Nat) :
    AddressSet.has (AddressSet.insert l a) b = (decide (b = a) || AddressSet.has l b) := by
  induction l with
  | nil => simp [AddressSet.insert, AddressSet.has, @eq_comm _ b a]
  | cons c rest ih =>
    simp only [AddressSet.insert]
    split
    · by_cases h : a = b
      · subst h; simp [AddressSet.has]
      · simp [AddressSet.has, h, Ne.symm h]
    · split
      · rename_i e; subst e
        by_cases h : c = b
        · subst h; simp [AddressSet.has]
        · simp [AddressSet.has, h, Ne.symm h]
      · by_cases h : c = b
        · simp [AddressSet.has, h]
        · simp [AddressSet.has, h, ih]

theorem AddressSet.has_remove (l : List Nat) (a b : Nat) :
    AddressSet.has (AddressSet.remove l a) b = (!decide (b = a) && AddressSet.has l b) := by
  induction l with
  | nil => simp [AddressSet.remove, AddressSet.has]
  | cons c rest ih =>
    simp only [AddressSet.remove]
    by_cases hc : c = a
    · subst hc
      by_cases h : b = c
      · rw [if_pos rfl, ih]; simp [h]
      · simp [ih, AddressSet.has, Ne.symm h]
    · by_cases h : c = b
      · subst h; simp [AddressSet.has, hc]
      · simp [AddressSet.has, hc, h, ih]

/-! ## The canonical form -/

theorem Memory.risingFrom_mono {lo lo' : Nat} {m : List Host.Cell} (h : Memory.risingFrom lo m = true) (hl : lo' ≤ lo) :
    Memory.risingFrom lo' m = true := by
  cases m with
  | nil => rfl
  | cons c rest => simp_all [Memory.risingFrom]; omega

theorem Memory.risingFrom_insert {lo a : Nat} {m : List Host.Cell} (v : Byte) (h : Memory.risingFrom lo m = true)
    (hlo : lo ≤ a) (ha : a < addressSpace) : Memory.risingFrom lo (Memory.insert m a v) = true := by
  induction m generalizing lo with
  | nil => simp [Memory.insert, Memory.risingFrom, hlo, ha]
  | cons c rest ih =>
    simp only [Memory.risingFrom, Bool.and_eq_true, decide_eq_true_eq] at h
    simp only [Memory.insert]
    split
    · simp only [Memory.risingFrom, Bool.and_eq_true, decide_eq_true_eq]
      exact ⟨⟨hlo, ha⟩, ⟨by omega, h.1.2⟩, h.2⟩
    · split
      · simp only [Memory.risingFrom, Bool.and_eq_true, decide_eq_true_eq]
        refine ⟨⟨hlo, ha⟩, ?_⟩
        rename_i e; rw [← e]; exact h.2
      · simp only [Memory.risingFrom, Bool.and_eq_true, decide_eq_true_eq]
        exact ⟨h.1, ih h.2 (by omega)⟩

/-- A write keeps the canonical form. -/
theorem Memory.wf_insert {m : List Host.Cell} {a : Nat} (v : Byte) (h : Memory.wf m = true) (ha : a < addressSpace) :
    Memory.wf (Memory.insert m a v) = true :=
  Memory.risingFrom_insert v h (Nat.zero_le a) ha

/-- A memory image has the canonical form. -/
theorem Memory.wf_ofImage (image : List Host.Cell) : Memory.wf (Memory.ofImage image) = true := by
  suffices h : ∀ m, Memory.wf m = true →
      Memory.wf (image.foldl (fun m c => if c.1 < addressSpace then Memory.insert m c.1 c.2 else m) m) = true from
    h [] rfl
  induction image with
  | nil => exact fun m h => h
  | cons c rest ih =>
    intro m hm
    refine ih _ ?_
    show Memory.wf (if c.1 < addressSpace then Memory.insert m c.1 c.2 else m) = true
    split
    · exact Memory.wf_insert _ hm ‹_›
    · exact hm

/-- The memory at reset has the canonical form. -/
theorem Memory.wf_reset : Memory.wf State.reset.mem = true := rfl

theorem Memory.lookup_of_risingFrom {lo a : Nat} {m : List Host.Cell} (h : Memory.risingFrom lo m = true) (ha : a < lo) :
    Memory.lookup m a = none := by
  induction m generalizing lo with
  | nil => rfl
  | cons c rest ih =>
    simp only [Memory.risingFrom, Bool.and_eq_true, decide_eq_true_eq] at h
    have : c.1 ≠ a := by omega
    simp only [Memory.lookup, this, if_false]
    exact ih h.2 (by omega)

/-- Equal contents are equal data: two memories in canonical form that read alike at every address are the same list. -/
theorem Memory.ext_of_risingFrom {lo : Nat} {m m' : List Host.Cell} (h : Memory.risingFrom lo m = true)
    (h' : Memory.risingFrom lo m' = true) (heq : ∀ a, Memory.lookup m a = Memory.lookup m' a) : m = m' := by
  induction m generalizing lo m' with
  | nil =>
    cases m' with
    | nil => rfl
    | cons c rest => have := heq c.1; simp [Memory.lookup] at this
  | cons c rest ih =>
    cases m' with
    | nil => have := heq c.1; simp [Memory.lookup] at this
    | cons d rest' =>
      simp only [Memory.risingFrom, Bool.and_eq_true, decide_eq_true_eq] at h h'
      have hcd : c.1 = d.1 := by
        rcases Nat.lt_trichotomy c.1 d.1 with lt | e | gt
        · have hx := heq c.1
          have : d.1 ≠ c.1 := by omega
          simp only [Memory.lookup, this, if_false, if_true] at hx
          rw [Memory.lookup_of_risingFrom h'.2 (by omega)] at hx
          exact absurd hx (by simp)
        · exact e
        · have hx := heq d.1
          have : c.1 ≠ d.1 := by omega
          simp only [Memory.lookup, this, if_false, if_true] at hx
          rw [Memory.lookup_of_risingFrom h.2 (by omega)] at hx
          exact absurd hx (by simp)
      have hv : c = d := by
        have hx := heq c.1
        simp only [Memory.lookup, hcd, if_true, Option.some.injEq] at hx
        exact Prod.ext hcd hx
      subst hv
      refine congrArg (c :: ·) (ih h.2 h'.2 fun a => ?_)
      have hx := heq a
      by_cases e : c.1 = a
      · rw [Memory.lookup_of_risingFrom h.2 (by omega), Memory.lookup_of_risingFrom h'.2 (by omega)]
      · simpa [Memory.lookup, e] using hx

theorem AddressSet.risingFrom_mono {lo lo' : Nat} {l : List Nat} (h : AddressSet.risingFrom lo l = true) (hl : lo' ≤ lo) :
    AddressSet.risingFrom lo' l = true := by
  cases l with
  | nil => rfl
  | cons c rest => simp_all [AddressSet.risingFrom]; omega

theorem AddressSet.risingFrom_insert {lo a : Nat} {l : List Nat} (h : AddressSet.risingFrom lo l = true)
    (hlo : lo ≤ a) (ha : a < addressSpace) : AddressSet.risingFrom lo (AddressSet.insert l a) = true := by
  induction l generalizing lo with
  | nil => simp [AddressSet.insert, AddressSet.risingFrom, hlo, ha]
  | cons c rest ih =>
    simp only [AddressSet.risingFrom, Bool.and_eq_true, decide_eq_true_eq] at h
    simp only [AddressSet.insert]
    split
    · simp only [AddressSet.risingFrom, Bool.and_eq_true, decide_eq_true_eq]
      exact ⟨⟨hlo, ha⟩, ⟨by omega, h.1.2⟩, h.2⟩
    · split
      · simp only [AddressSet.risingFrom, Bool.and_eq_true, decide_eq_true_eq]
        exact h
      · simp only [AddressSet.risingFrom, Bool.and_eq_true, decide_eq_true_eq]
        exact ⟨h.1, ih h.2 (by omega)⟩

/-- Marking an address keeps the canonical form. -/
theorem AddressSet.wf_insert {l : List Nat} {a : Nat} (h : AddressSet.wf l = true) (ha : a < addressSpace) :
    AddressSet.wf (AddressSet.insert l a) = true :=
  AddressSet.risingFrom_insert h (Nat.zero_le a) ha

theorem AddressSet.risingFrom_remove {lo : Nat} {l : List Nat} (a : Nat) (h : AddressSet.risingFrom lo l = true) :
    AddressSet.risingFrom lo (AddressSet.remove l a) = true := by
  induction l generalizing lo with
  | nil => rfl
  | cons c rest ih =>
    simp only [AddressSet.risingFrom, Bool.and_eq_true, decide_eq_true_eq] at h
    simp only [AddressSet.remove]
    split
    · exact AddressSet.risingFrom_mono (ih h.2) (by omega)
    · simp only [AddressSet.risingFrom, Bool.and_eq_true, decide_eq_true_eq]
      exact ⟨h.1, ih h.2⟩

/-- Unmarking an address keeps the canonical form. -/
theorem AddressSet.wf_remove {l : List Nat} (a : Nat) (h : AddressSet.wf l = true) :
    AddressSet.wf (AddressSet.remove l a) = true :=
  AddressSet.risingFrom_remove a h

/-- Every address is inside the address space. -/
theorem toNat_lt_addressSpace (a : Addr) : a.toNat < addressSpace := a.isLt

end Sys2Proof.Machine
end

