-- ==== Sys2Proof/Laws/State.lean ====
section
/-! SUPPORT. One lemma for each field of State and each update of it, so that no proof unfolds a record update; and what
reading a register, a flag, a pair or a byte of memory gives after an update. -/

namespace Sys2Proof.Machine

/-! ### setReg -/

@[simp] theorem State.setReg_cfg (s : State) (n : Reg) (v : Byte) : (s.setReg n v).cfg = s.cfg := rfl
@[simp] theorem State.setReg_regs (s : State) (n : Reg) (v : Byte) : (s.setReg n v).regs = s.regs.set n v := rfl
@[simp] theorem State.setReg_pc (s : State) (n : Reg) (v : Byte) : (s.setReg n v).pc = s.pc := rfl
@[simp] theorem State.setReg_psr (s : State) (n : Reg) (v : Byte) : (s.setReg n v).psr = s.psr := rfl
@[simp] theorem State.setReg_sp (s : State) (n : Reg) (v : Byte) : (s.setReg n v).sp = s.sp := rfl
@[simp] theorem State.setReg_imr (s : State) (n : Reg) (v : Byte) : (s.setReg n v).imr = s.imr := rfl
@[simp] theorem State.setReg_mem (s : State) (n : Reg) (v : Byte) : (s.setReg n v).mem = s.mem := rfl
@[simp] theorem State.setReg_stored (s : State) (n : Reg) (v : Byte) : (s.setReg n v).stored = s.stored := rfl
@[simp] theorem State.setReg_requests (s : State) (n : Reg) (v : Byte) : (s.setReg n v).requests = s.requests := rfl
@[simp] theorem State.setReg_freeCount (s : State) (n : Reg) (v : Byte) : (s.setReg n v).freeCount = s.freeCount := rfl

/-! ### setPc -/

@[simp] theorem State.setPc_cfg (s : State) (v : Addr) : (s.setPc v).cfg = s.cfg := rfl
@[simp] theorem State.setPc_regs (s : State) (v : Addr) : (s.setPc v).regs = s.regs := rfl
@[simp] theorem State.setPc_pc (s : State) (v : Addr) : (s.setPc v).pc = v := rfl
@[simp] theorem State.setPc_psr (s : State) (v : Addr) : (s.setPc v).psr = s.psr := rfl
@[simp] theorem State.setPc_sp (s : State) (v : Addr) : (s.setPc v).sp = s.sp := rfl
@[simp] theorem State.setPc_imr (s : State) (v : Addr) : (s.setPc v).imr = s.imr := rfl
@[simp] theorem State.setPc_mem (s : State) (v : Addr) : (s.setPc v).mem = s.mem := rfl
@[simp] theorem State.setPc_stored (s : State) (v : Addr) : (s.setPc v).stored = s.stored := rfl
@[simp] theorem State.setPc_requests (s : State) (v : Addr) : (s.setPc v).requests = s.requests := rfl
@[simp] theorem State.setPc_freeCount (s : State) (v : Addr) : (s.setPc v).freeCount = s.freeCount := rfl

/-! ### setSp -/

@[simp] theorem State.setSp_cfg (s : State) (v : Addr) : (s.setSp v).cfg = s.cfg := rfl
@[simp] theorem State.setSp_regs (s : State) (v : Addr) : (s.setSp v).regs = s.regs := rfl
@[simp] theorem State.setSp_pc (s : State) (v : Addr) : (s.setSp v).pc = s.pc := rfl
@[simp] theorem State.setSp_psr (s : State) (v : Addr) : (s.setSp v).psr = s.psr := rfl
@[simp] theorem State.setSp_sp (s : State) (v : Addr) : (s.setSp v).sp = v := rfl
@[simp] theorem State.setSp_imr (s : State) (v : Addr) : (s.setSp v).imr = s.imr := rfl
@[simp] theorem State.setSp_mem (s : State) (v : Addr) : (s.setSp v).mem = s.mem := rfl
@[simp] theorem State.setSp_stored (s : State) (v : Addr) : (s.setSp v).stored = s.stored := rfl
@[simp] theorem State.setSp_requests (s : State) (v : Addr) : (s.setSp v).requests = s.requests := rfl
@[simp] theorem State.setSp_freeCount (s : State) (v : Addr) : (s.setSp v).freeCount = s.freeCount := rfl

/-! ### setPsr -/

@[simp] theorem State.setPsr_cfg (s : State) (v : Byte) : (s.setPsr v).cfg = s.cfg := rfl
@[simp] theorem State.setPsr_regs (s : State) (v : Byte) : (s.setPsr v).regs = s.regs := rfl
@[simp] theorem State.setPsr_pc (s : State) (v : Byte) : (s.setPsr v).pc = s.pc := rfl
@[simp] theorem State.setPsr_psr (s : State) (v : Byte) : (s.setPsr v).psr = v := rfl
@[simp] theorem State.setPsr_sp (s : State) (v : Byte) : (s.setPsr v).sp = s.sp := rfl
@[simp] theorem State.setPsr_imr (s : State) (v : Byte) : (s.setPsr v).imr = s.imr := rfl
@[simp] theorem State.setPsr_mem (s : State) (v : Byte) : (s.setPsr v).mem = s.mem := rfl
@[simp] theorem State.setPsr_stored (s : State) (v : Byte) : (s.setPsr v).stored = s.stored := rfl
@[simp] theorem State.setPsr_requests (s : State) (v : Byte) : (s.setPsr v).requests = s.requests := rfl
@[simp] theorem State.setPsr_freeCount (s : State) (v : Byte) : (s.setPsr v).freeCount = s.freeCount := rfl

/-! ### setImr -/

@[simp] theorem State.setImr_cfg (s : State) (v : Byte) : (s.setImr v).cfg = s.cfg := rfl
@[simp] theorem State.setImr_regs (s : State) (v : Byte) : (s.setImr v).regs = s.regs := rfl
@[simp] theorem State.setImr_pc (s : State) (v : Byte) : (s.setImr v).pc = s.pc := rfl
@[simp] theorem State.setImr_psr (s : State) (v : Byte) : (s.setImr v).psr = s.psr := rfl
@[simp] theorem State.setImr_sp (s : State) (v : Byte) : (s.setImr v).sp = s.sp := rfl
@[simp] theorem State.setImr_imr (s : State) (v : Byte) : (s.setImr v).imr = v ||| 1 := rfl
@[simp] theorem State.setImr_mem (s : State) (v : Byte) : (s.setImr v).mem = s.mem := rfl
@[simp] theorem State.setImr_stored (s : State) (v : Byte) : (s.setImr v).stored = s.stored := rfl
@[simp] theorem State.setImr_requests (s : State) (v : Byte) : (s.setImr v).requests = s.requests := rfl
@[simp] theorem State.setImr_freeCount (s : State) (v : Byte) : (s.setImr v).freeCount = s.freeCount := rfl

/-! ### advance -/

@[simp] theorem State.advance_cfg (s : State) (k : Addr) : (s.advance k).cfg = s.cfg := rfl
@[simp] theorem State.advance_regs (s : State) (k : Addr) : (s.advance k).regs = s.regs := rfl
@[simp] theorem State.advance_pc (s : State) (k : Addr) : (s.advance k).pc = s.pc + k := rfl
@[simp] theorem State.advance_psr (s : State) (k : Addr) : (s.advance k).psr = s.psr := rfl
@[simp] theorem State.advance_sp (s : State) (k : Addr) : (s.advance k).sp = s.sp := rfl
@[simp] theorem State.advance_imr (s : State) (k : Addr) : (s.advance k).imr = s.imr := rfl
@[simp] theorem State.advance_mem (s : State) (k : Addr) : (s.advance k).mem = s.mem := rfl
@[simp] theorem State.advance_stored (s : State) (k : Addr) : (s.advance k).stored = s.stored := rfl
@[simp] theorem State.advance_requests (s : State) (k : Addr) : (s.advance k).requests = s.requests := rfl
@[simp] theorem State.advance_freeCount (s : State) (k : Addr) : (s.advance k).freeCount = s.freeCount := rfl

/-! ### setPair -/

@[simp] theorem State.setPair_cfg (s : State) (e : Pair) (v : Addr) : (s.setPair e v).cfg = s.cfg := rfl
@[simp] theorem State.setPair_regs (s : State) (e : Pair) (v : Addr) : (s.setPair e v).regs = (s.regs.set (evenReg e) (lo8 v)).set (oddReg e) (hi8 v) := rfl
@[simp] theorem State.setPair_pc (s : State) (e : Pair) (v : Addr) : (s.setPair e v).pc = s.pc := rfl
@[simp] theorem State.setPair_psr (s : State) (e : Pair) (v : Addr) : (s.setPair e v).psr = s.psr := rfl
@[simp] theorem State.setPair_sp (s : State) (e : Pair) (v : Addr) : (s.setPair e v).sp = s.sp := rfl
@[simp] theorem State.setPair_imr (s : State) (e : Pair) (v : Addr) : (s.setPair e v).imr = s.imr := rfl
@[simp] theorem State.setPair_mem (s : State) (e : Pair) (v : Addr) : (s.setPair e v).mem = s.mem := rfl
@[simp] theorem State.setPair_stored (s : State) (e : Pair) (v : Addr) : (s.setPair e v).stored = s.stored := rfl
@[simp] theorem State.setPair_requests (s : State) (e : Pair) (v : Addr) : (s.setPair e v).requests = s.requests := rfl
@[simp] theorem State.setPair_freeCount (s : State) (e : Pair) (v : Addr) : (s.setPair e v).freeCount = s.freeCount := rfl

/-! ### bumpPair -/

@[simp] theorem State.bumpPair_cfg (s : State) (e : Pair) (a : Bool) : (s.bumpPair e a).cfg = s.cfg := rfl
@[simp] theorem State.bumpPair_regs (s : State) (e : Pair) (a : Bool) : (s.bumpPair e a).regs = (s.setPair e (s.pair e + bit16 a)).regs := rfl
@[simp] theorem State.bumpPair_pc (s : State) (e : Pair) (a : Bool) : (s.bumpPair e a).pc = s.pc := rfl
@[simp] theorem State.bumpPair_psr (s : State) (e : Pair) (a : Bool) : (s.bumpPair e a).psr = s.psr := rfl
@[simp] theorem State.bumpPair_sp (s : State) (e : Pair) (a : Bool) : (s.bumpPair e a).sp = s.sp := rfl
@[simp] theorem State.bumpPair_imr (s : State) (e : Pair) (a : Bool) : (s.bumpPair e a).imr = s.imr := rfl
@[simp] theorem State.bumpPair_mem (s : State) (e : Pair) (a : Bool) : (s.bumpPair e a).mem = s.mem := rfl
@[simp] theorem State.bumpPair_stored (s : State) (e : Pair) (a : Bool) : (s.bumpPair e a).stored = s.stored := rfl
@[simp] theorem State.bumpPair_requests (s : State) (e : Pair) (a : Bool) : (s.bumpPair e a).requests = s.requests := rfl
@[simp] theorem State.bumpPair_freeCount (s : State) (e : Pair) (a : Bool) : (s.bumpPair e a).freeCount = s.freeCount := rfl

/-! ### setFlag -/

@[simp] theorem State.setFlag_cfg (s : State) (n : BitIndex) (b : Bool) : (s.setFlag n b).cfg = s.cfg := rfl
@[simp] theorem State.setFlag_regs (s : State) (n : BitIndex) (b : Bool) : (s.setFlag n b).regs = s.regs := rfl
@[simp] theorem State.setFlag_pc (s : State) (n : BitIndex) (b : Bool) : (s.setFlag n b).pc = s.pc := rfl
@[simp] theorem State.setFlag_psr (s : State) (n : BitIndex) (b : Bool) : (s.setFlag n b).psr = withBit s.psr n b := rfl
@[simp] theorem State.setFlag_sp (s : State) (n : BitIndex) (b : Bool) : (s.setFlag n b).sp = s.sp := rfl
@[simp] theorem State.setFlag_imr (s : State) (n : BitIndex) (b : Bool) : (s.setFlag n b).imr = s.imr := rfl
@[simp] theorem State.setFlag_mem (s : State) (n : BitIndex) (b : Bool) : (s.setFlag n b).mem = s.mem := rfl
@[simp] theorem State.setFlag_stored (s : State) (n : BitIndex) (b : Bool) : (s.setFlag n b).stored = s.stored := rfl
@[simp] theorem State.setFlag_requests (s : State) (n : BitIndex) (b : Bool) : (s.setFlag n b).requests = s.requests := rfl
@[simp] theorem State.setFlag_freeCount (s : State) (n : BitIndex) (b : Bool) : (s.setFlag n b).freeCount = s.freeCount := rfl

/-! ### setNZ -/

@[simp] theorem State.setNZ_cfg (s : State) (v : Byte) : (s.setNZ v).cfg = s.cfg := rfl
@[simp] theorem State.setNZ_regs (s : State) (v : Byte) : (s.setNZ v).regs = s.regs := rfl
@[simp] theorem State.setNZ_pc (s : State) (v : Byte) : (s.setNZ v).pc = s.pc := rfl
@[simp] theorem State.setNZ_psr (s : State) (v : Byte) : (s.setNZ v).psr = withBit (withBit s.psr nBit (bitOf v 7)) zBit (v == 0) := rfl
@[simp] theorem State.setNZ_sp (s : State) (v : Byte) : (s.setNZ v).sp = s.sp := rfl
@[simp] theorem State.setNZ_imr (s : State) (v : Byte) : (s.setNZ v).imr = s.imr := rfl
@[simp] theorem State.setNZ_mem (s : State) (v : Byte) : (s.setNZ v).mem = s.mem := rfl
@[simp] theorem State.setNZ_stored (s : State) (v : Byte) : (s.setNZ v).stored = s.stored := rfl
@[simp] theorem State.setNZ_requests (s : State) (v : Byte) : (s.setNZ v).requests = s.requests := rfl
@[simp] theorem State.setNZ_freeCount (s : State) (v : Byte) : (s.setNZ v).freeCount = s.freeCount := rfl

/-! ### setNCZ -/

@[simp] theorem State.setNCZ_cfg (s : State) (t : BitVec 9) : (s.setNCZ t).cfg = s.cfg := rfl
@[simp] theorem State.setNCZ_regs (s : State) (t : BitVec 9) : (s.setNCZ t).regs = s.regs := rfl
@[simp] theorem State.setNCZ_pc (s : State) (t : BitVec 9) : (s.setNCZ t).pc = s.pc := rfl
@[simp] theorem State.setNCZ_psr (s : State) (t : BitVec 9) : (s.setNCZ t).psr = withBit (withBit (withBit s.psr nBit (t.getLsbD 7)) cBit (carry9 t)) zBit (low8 t == 0) := rfl
@[simp] theorem State.setNCZ_sp (s : State) (t : BitVec 9) : (s.setNCZ t).sp = s.sp := rfl
@[simp] theorem State.setNCZ_imr (s : State) (t : BitVec 9) : (s.setNCZ t).imr = s.imr := rfl
@[simp] theorem State.setNCZ_mem (s : State) (t : BitVec 9) : (s.setNCZ t).mem = s.mem := rfl
@[simp] theorem State.setNCZ_stored (s : State) (t : BitVec 9) : (s.setNCZ t).stored = s.stored := rfl
@[simp] theorem State.setNCZ_requests (s : State) (t : BitVec 9) : (s.setNCZ t).requests = s.requests := rfl
@[simp] theorem State.setNCZ_freeCount (s : State) (t : BitVec 9) : (s.setNCZ t).freeCount = s.freeCount := rfl

/-! ### Reading after an update -/

@[simp] theorem Regs.get_set (x : Regs) (n m : Reg) (v : Byte) : (x.set n v).get m = if m = n then v else x.get m := by
  cases n <;> cases m <;> rfl

theorem State.reg_of_regs {s t : State} (h : t.regs = s.regs) (n : Reg) : t.reg n = s.reg n := by
  simp [State.reg, h]

@[simp] theorem State.reg_setReg (s : State) (n m : Reg) (v : Byte) :
    (s.setReg n v).reg m = if m = n then v else s.reg m := by
  simp [State.reg]

@[simp] theorem State.reg_setPair (s : State) (e : Pair) (v : Addr) (m : Reg) :
    (s.setPair e v).reg m = if m = oddReg e then hi8 v else if m = evenReg e then lo8 v else s.reg m := by
  simp [State.setPair]

@[simp] theorem State.reg_bumpPair (s : State) (e : Pair) (a : Bool) (m : Reg) :
    (s.bumpPair e a).reg m = if m = oddReg e then hi8 (s.pair e + bit16 a)
      else if m = evenReg e then lo8 (s.pair e + bit16 a) else s.reg m := by
  simp [State.bumpPair]

@[simp] theorem State.reg_setPc (s : State) (v : Addr) (m : Reg) : (s.setPc v).reg m = s.reg m := rfl
@[simp] theorem State.reg_setSp (s : State) (v : Addr) (m : Reg) : (s.setSp v).reg m = s.reg m := rfl
@[simp] theorem State.reg_setPsr (s : State) (v : Byte) (m : Reg) : (s.setPsr v).reg m = s.reg m := rfl
@[simp] theorem State.reg_setImr (s : State) (v : Byte) (m : Reg) : (s.setImr v).reg m = s.reg m := rfl
@[simp] theorem State.reg_advance (s : State) (k : Addr) (m : Reg) : (s.advance k).reg m = s.reg m := rfl
@[simp] theorem State.reg_setFlag (s : State) (n : BitIndex) (b : Bool) (m : Reg) : (s.setFlag n b).reg m = s.reg m := rfl
@[simp] theorem State.reg_setNZ (s : State) (v : Byte) (m : Reg) : (s.setNZ v).reg m = s.reg m := rfl
@[simp] theorem State.reg_setNCZ (s : State) (t : BitVec 9) (m : Reg) : (s.setNCZ t).reg m = s.reg m := rfl

@[simp] theorem State.flag_setReg (s : State) (n : Reg) (v : Byte) (m : BitIndex) : (s.setReg n v).flag m = s.flag m := rfl
@[simp] theorem State.flag_setPc (s : State) (v : Addr) (m : BitIndex) : (s.setPc v).flag m = s.flag m := rfl
@[simp] theorem State.flag_setSp (s : State) (v : Addr) (m : BitIndex) : (s.setSp v).flag m = s.flag m := rfl
@[simp] theorem State.flag_setImr (s : State) (v : Byte) (m : BitIndex) : (s.setImr v).flag m = s.flag m := rfl
@[simp] theorem State.flag_advance (s : State) (k : Addr) (m : BitIndex) : (s.advance k).flag m = s.flag m := rfl
@[simp] theorem State.flag_setPair (s : State) (e : Pair) (v : Addr) (m : BitIndex) : (s.setPair e v).flag m = s.flag m := rfl
@[simp] theorem State.flag_bumpPair (s : State) (e : Pair) (a : Bool) (m : BitIndex) : (s.bumpPair e a).flag m = s.flag m := rfl

theorem bitOf_bitMask (n m : BitIndex) : bitOf (bitMask n) m = decide (m = n) := by
  revert n m; decide

/-- A bit of a byte after one bit of it was written. -/
@[simp] theorem bitOf_withBit (v : Byte) (n m : BitIndex) (b : Bool) :
    bitOf (withBit v n b) m = if m = n then b else bitOf v m := by
  have h := bitOf_bitMask n m
  have hm : m.val < 8 := m.isLt
  unfold bitOf at *
  cases b <;> simp only [withBit, Bool.false_eq_true, if_true, if_false, BitVec.getLsbD_or, BitVec.getLsbD_and,
    BitVec.getLsbD_not, h, hm, decide_true, Bool.true_and] <;> by_cases e : m = n <;> simp [e]

@[simp] theorem State.flag_setPsr (s : State) (v : Byte) (m : BitIndex) : (s.setPsr v).flag m = bitOf v m := rfl

@[simp] theorem State.flag_setFlag (s : State) (n m : BitIndex) (b : Bool) :
    (s.setFlag n b).flag m = if m = n then b else s.flag m := by
  simp [State.setFlag, State.flag]

@[simp] theorem State.flag_setNZ (s : State) (v : Byte) (m : BitIndex) :
    (s.setNZ v).flag m = if m = zBit then v == 0 else if m = nBit then bitOf v 7 else s.flag m := by
  simp [State.setNZ]

@[simp] theorem State.flag_setNCZ (s : State) (t : BitVec 9) (m : BitIndex) :
    (s.setNCZ t).flag m = if m = zBit then low8 t == 0 else if m = cBit then carry9 t
      else if m = nBit then t.getLsbD 7 else s.flag m := by
  simp [State.setNCZ]

@[simp] theorem State.byteAt_setReg (s : State) (n : Reg) (v : Byte) (x : Addr) : (s.setReg n v).byteAt x = s.byteAt x := rfl
@[simp] theorem State.byteAt_setPc (s : State) (v : Addr) (x : Addr) : (s.setPc v).byteAt x = s.byteAt x := rfl
@[simp] theorem State.byteAt_setSp (s : State) (v : Addr) (x : Addr) : (s.setSp v).byteAt x = s.byteAt x := rfl
@[simp] theorem State.byteAt_setPsr (s : State) (v : Byte) (x : Addr) : (s.setPsr v).byteAt x = s.byteAt x := rfl
@[simp] theorem State.byteAt_setImr (s : State) (v : Byte) (x : Addr) : (s.setImr v).byteAt x = s.byteAt x := rfl
@[simp] theorem State.byteAt_advance (s : State) (k : Addr) (x : Addr) : (s.advance k).byteAt x = s.byteAt x := rfl
@[simp] theorem State.byteAt_setPair (s : State) (e : Pair) (v : Addr) (x : Addr) : (s.setPair e v).byteAt x = s.byteAt x := rfl
@[simp] theorem State.byteAt_bumpPair (s : State) (e : Pair) (a : Bool) (x : Addr) : (s.bumpPair e a).byteAt x = s.byteAt x := rfl
@[simp] theorem State.byteAt_setFlag (s : State) (n : BitIndex) (b : Bool) (x : Addr) : (s.setFlag n b).byteAt x = s.byteAt x := rfl
@[simp] theorem State.byteAt_setNZ (s : State) (v : Byte) (x : Addr) : (s.setNZ v).byteAt x = s.byteAt x := rfl
@[simp] theorem State.byteAt_setNCZ (s : State) (t : BitVec 9) (x : Addr) : (s.setNCZ t).byteAt x = s.byteAt x := rfl

@[simp] theorem State.modified_setReg (s : State) (n : Reg) (v : Byte) (x : Addr) : (s.setReg n v).modified x = s.modified x := rfl
@[simp] theorem State.modified_setPc (s : State) (v : Addr) (x : Addr) : (s.setPc v).modified x = s.modified x := rfl
@[simp] theorem State.modified_setSp (s : State) (v : Addr) (x : Addr) : (s.setSp v).modified x = s.modified x := rfl
@[simp] theorem State.modified_setPsr (s : State) (v : Byte) (x : Addr) : (s.setPsr v).modified x = s.modified x := rfl
@[simp] theorem State.modified_setImr (s : State) (v : Byte) (x : Addr) : (s.setImr v).modified x = s.modified x := rfl
@[simp] theorem State.modified_advance (s : State) (k : Addr) (x : Addr) : (s.advance k).modified x = s.modified x := rfl
@[simp] theorem State.modified_setPair (s : State) (e : Pair) (v : Addr) (x : Addr) : (s.setPair e v).modified x = s.modified x := rfl
@[simp] theorem State.modified_bumpPair (s : State) (e : Pair) (a : Bool) (x : Addr) : (s.bumpPair e a).modified x = s.modified x := rfl
@[simp] theorem State.modified_setFlag (s : State) (n : BitIndex) (b : Bool) (x : Addr) : (s.setFlag n b).modified x = s.modified x := rfl
@[simp] theorem State.modified_setNZ (s : State) (v : Byte) (x : Addr) : (s.setNZ v).modified x = s.modified x := rfl
@[simp] theorem State.modified_setNCZ (s : State) (t : BitVec 9) (x : Addr) : (s.setNCZ t).modified x = s.modified x := rfl

@[simp] theorem State.kindAt_setReg (s : State) (n : Reg) (v : Byte) (x : Addr) : (s.setReg n v).kindAt x = s.kindAt x := rfl
@[simp] theorem State.kindAt_setPc (s : State) (v : Addr) (x : Addr) : (s.setPc v).kindAt x = s.kindAt x := rfl
@[simp] theorem State.kindAt_setSp (s : State) (v : Addr) (x : Addr) : (s.setSp v).kindAt x = s.kindAt x := rfl
@[simp] theorem State.kindAt_setPsr (s : State) (v : Byte) (x : Addr) : (s.setPsr v).kindAt x = s.kindAt x := rfl
@[simp] theorem State.kindAt_setImr (s : State) (v : Byte) (x : Addr) : (s.setImr v).kindAt x = s.kindAt x := rfl
@[simp] theorem State.kindAt_advance (s : State) (k : Addr) (x : Addr) : (s.advance k).kindAt x = s.kindAt x := rfl
@[simp] theorem State.kindAt_setPair (s : State) (e : Pair) (v : Addr) (x : Addr) : (s.setPair e v).kindAt x = s.kindAt x := rfl
@[simp] theorem State.kindAt_bumpPair (s : State) (e : Pair) (a : Bool) (x : Addr) : (s.bumpPair e a).kindAt x = s.kindAt x := rfl
@[simp] theorem State.kindAt_setFlag (s : State) (n : BitIndex) (b : Bool) (x : Addr) : (s.setFlag n b).kindAt x = s.kindAt x := rfl
@[simp] theorem State.kindAt_setNZ (s : State) (v : Byte) (x : Addr) : (s.setNZ v).kindAt x = s.kindAt x := rfl
@[simp] theorem State.kindAt_setNCZ (s : State) (t : BitVec 9) (x : Addr) : (s.setNCZ t).kindAt x = s.kindAt x := rfl

end Sys2Proof.Machine
end

