-- ==== Sys2Proof/Laws/Ops.lean ====
section
/-! SUPPORT. One inversion lemma for each shared operation: if it answers, these are all the things it can have done. -/

namespace Sys2Proof.Machine

/-! ## Outcomes -/

@[simp] theorem finish_ok (s : State) : finish (.ok s) = .next s := rfl

theorem finish_eq_next {r : Except Halt State} {t : State} : finish r = .next t ↔ r = .ok t := by
  rcases r with h | s
  · cases h <;> simp [finish]
  · simp [finish]

@[simp] theorem ok_bind {α β : Type} (a : α) (f : α → Except Halt β) : ((.ok a : Except Halt α) >>= f) = f a := rfl

@[simp] theorem error_bind {α β : Type} (h : Halt) (f : α → Except Halt β) :
    ((.error h : Except Halt α) >>= f) = .error h := rfl

/-- A chain of operations answers exactly if its first operation does and the rest does from there. -/
theorem bind_eq_ok {α β : Type} {x : Except Halt α} {f : α → Except Halt β} {b : β} :
    (x >>= f) = .ok b ↔ ∃ a, x = .ok a ∧ f a = .ok b := by
  cases x <;> simp

@[simp] theorem pure_eq_ok {α : Type} (a b : α) : (pure a : Except Halt α) = .ok b ↔ a = b :=
  ⟨fun h => Except.ok.inj h, fun h => congrArg _ h⟩

/-! ## Reading -/

@[simp] theorem State.byteAt_mem (s : State) (m : List Host.Cell) (l : List Nat) (a : Addr) :
    State.byteAt { s with mem := m, stored := l } a = Memory.lookup m a.toNat := rfl

/-- What a read gives: the byte memory holds, or a device's next answer, of which one more has then been used. -/
theorem readByte_eq_ok {a : Addr} {s t : State} {v : Byte} :
    readByte a s = .ok (v, t) ↔
      (holdsBytes (s.kindAt a) = true ∧ s.byteAt a = some v ∧ t = s) ∨
        (s.kindAt a = .device ∧ v = Config.freeByte s.freeCount ∧ t = { s with freeCount := s.freeCount + 1 }) := by
  unfold readByte
  cases hk : s.kindAt a <;> simp only [holdsBytes] <;> (try cases hb : s.byteAt a) <;> simp [eq_comm]

/-- Nothing but the count of free values changes at a read. -/
theorem readByte_frame {a : Addr} {s t : State} {v : Byte} (h : readByte a s = .ok (v, t)) :
    t = { s with freeCount := t.freeCount } := by
  rcases readByte_eq_ok.1 h with ⟨_, _, rfl⟩ | ⟨_, _, rfl⟩ <;> rfl

/-- Reading two bytes reads the low one first. -/
theorem readWord_eq_ok {a : Addr} {s t : State} {v : Addr} :
    readWord a s = .ok (v, t) ↔
      ∃ lo hi s1, readByte a s = .ok (lo, s1) ∧ readByte (a + 1) s1 = .ok (hi, t) ∧ v = word16 hi lo := by
  simp only [readWord, bind_eq_ok, pure_eq_ok, Prod.exists, Prod.mk.injEq]
  constructor
  · rintro ⟨lo, s1, h1, hi, s2, h2, rfl, rfl⟩; exact ⟨lo, hi, s1, h1, h2, rfl⟩
  · rintro ⟨lo, hi, s1, h1, h2, rfl⟩; exact ⟨lo, s1, h1, hi, t, h2, rfl, rfl⟩

theorem readWord_frame {a : Addr} {s t : State} {v : Addr} (h : readWord a s = .ok (v, t)) :
    t = { s with freeCount := t.freeCount } := by
  obtain ⟨lo, hi, s1, h1, h2, _⟩ := readWord_eq_ok.1 h
  rw [readByte_frame h2, readByte_frame h1]

/-! ## Writing -/

/-- What a write does: plain memory holds the byte, a device keeps nothing; the address is marked either way. -/
theorem writeByte_eq_ok {a : Addr} {v : Byte} {s t : State} :
    writeByte a v s = .ok t ↔
      (s.kindAt a = .plain ∧
          t = { s with mem := Memory.insert s.mem a.toNat v, stored := AddressSet.insert s.stored a.toNat }) ∨
        (s.kindAt a = .device ∧ t = { s with stored := AddressSet.insert s.stored a.toNat }) := by
  unfold writeByte
  cases hk : s.kindAt a <;> simp [eq_comm]

/-- Nothing but memory and the set of stored addresses changes at a write. -/
theorem writeByte_frame {a : Addr} {v : Byte} {s t : State} (h : writeByte a v s = .ok t) :
    t = { s with mem := t.mem, stored := t.stored } := by
  rcases writeByte_eq_ok.1 h with ⟨_, rfl⟩ | ⟨_, rfl⟩ <;> rfl

/-- What every address reads as after a write. -/
theorem writeByte_byteAt {a : Addr} {v : Byte} {s t : State} (h : writeByte a v s = .ok t) (b : Addr) :
    t.byteAt b = if b = a ∧ s.kindAt a = .plain then some v else s.byteAt b := by
  rcases writeByte_eq_ok.1 h with ⟨hk, rfl⟩ | ⟨hk, rfl⟩
  · simp only [State.byteAt, Memory.lookup_insert, hk, and_true]
    by_cases e : b = a
    · simp [e]
    · have : b.toNat ≠ a.toNat := fun h => e (BitVec.eq_of_toNat_eq h)
      simp [e, this]
  · simp [hk, State.byteAt]

/-- Which addresses are marked as stored to after a write. -/
theorem writeByte_modified {a : Addr} {v : Byte} {s t : State} (h : writeByte a v s = .ok t) (b : Addr) :
    t.modified b = (decide (b = a) || s.modified b) := by
  have e : decide (b.toNat = a.toNat) = decide (b = a) := by simp [BitVec.toNat_inj]
  rcases writeByte_eq_ok.1 h with ⟨_, rfl⟩ | ⟨_, rfl⟩ <;> simp [State.modified, AddressSet.has_insert, e]

/-- A write keeps both canonical forms. -/
theorem writeByte_wf {a : Addr} {v : Byte} {s t : State} (h : writeByte a v s = .ok t)
    (hm : Memory.wf s.mem = true) (hs : AddressSet.wf s.stored = true) :
    Memory.wf t.mem = true ∧ AddressSet.wf t.stored = true := by
  rcases writeByte_eq_ok.1 h with ⟨_, rfl⟩ | ⟨_, rfl⟩
  · exact ⟨Memory.wf_insert v hm a.isLt, AddressSet.wf_insert hs a.isLt⟩
  · exact ⟨hm, AddressSet.wf_insert hs a.isLt⟩

/-! ## The stack -/

/-- A push is a write at the decremented stack pointer. -/
theorem push_eq_ok {v : Byte} {s t : State} :
    push v s = .ok t ↔ writeByte (s.sp - 1) v (s.setSp (s.sp - 1)) = .ok t := Iff.rfl

/-- Only memory, the set of stored addresses and the stack pointer change at a push. -/
theorem push_frame {v : Byte} {s t : State} (h : push v s = .ok t) :
    t = { s with mem := t.mem, stored := t.stored, sp := s.sp - 1 } := by
  have := writeByte_frame (push_eq_ok.1 h)
  rw [this]; rfl

theorem pushWord_eq_ok {v : Addr} {s t : State} :
    pushWord v s = .ok t ↔ ∃ s1, push (hi8 v) s = .ok s1 ∧ push (lo8 v) s1 = .ok t := by
  simp only [pushWord, bind_eq_ok]

theorem pushWord_frame {v : Addr} {s t : State} (h : pushWord v s = .ok t) :
    t = { s with mem := t.mem, stored := t.stored, sp := s.sp - 1 - 1 } := by
  obtain ⟨s1, h1, h2⟩ := pushWord_eq_ok.1 h
  have e1 : s1.sp = s.sp - 1 := by rw [push_frame h1]
  rw [push_frame h2, push_frame h1]

/-! ## Interrupts -/

/-- All an interrupt entry does. -/
theorem takeInterrupt_eq_ok {n : BitIndex} {ret : Addr} {s t : State} :
    takeInterrupt n ret s = .ok t ↔
      ∃ s1 s2 s3 handler, push s.psr s = .ok s1 ∧ pushWord ret (s1.setFlag iBit false) = .ok s2 ∧
        readWord (s2.vectorAddr n) s2 = .ok (handler, s3) ∧ t = s3.setPc handler := by
  simp only [takeInterrupt, bind_eq_ok, pure_eq_ok, Prod.exists]
  constructor
  · rintro ⟨s1, h1, s2, h2, handler, s3, h3, rfl⟩; exact ⟨s1, s2, s3, handler, h1, h2, h3, rfl⟩
  · rintro ⟨s1, s2, s3, handler, h1, h2, h3, rfl⟩; exact ⟨s1, h1, s2, h2, handler, s3, h3, rfl⟩

/-- What an interrupt entry leaves alone: the general registers, the mask register, the parameters and the inputs. -/
theorem takeInterrupt_frame {n : BitIndex} {ret : Addr} {s t : State} (h : takeInterrupt n ret s = .ok t) :
    t = { s with mem := t.mem, stored := t.stored, sp := s.sp - 1 - 1 - 1, psr := withBit s.psr iBit false,
                 pc := t.pc, freeCount := t.freeCount } := by
  obtain ⟨s1, s2, s3, handler, h1, h2, h3, rfl⟩ := takeInterrupt_eq_ok.1 h
  have e1 := push_frame h1
  have e2 := pushWord_frame h2
  have e3 := readWord_frame h3
  simp only [State.setPc]
  rw [e3, e2, e1]
  rfl

/-- All a return from interrupt does. -/
theorem returnFromInterrupt_eq_ok {s t : State} :
    returnFromInterrupt s = .ok t ↔
      ∃ target p s1 s2, readWord s.sp s = .ok (target, s1) ∧ readByte (s.sp + 2) s1 = .ok (p, s2) ∧
        t = ((s2.setSp (s.sp + 3)).setPsr p).setPc target := by
  simp only [returnFromInterrupt, bind_eq_ok, pure_eq_ok, Prod.exists]
  constructor
  · rintro ⟨target, s1, h1, p, s2, h2, rfl⟩; exact ⟨target, p, s1, s2, h1, h2, rfl⟩
  · rintro ⟨target, p, s1, s2, h1, h2, rfl⟩; exact ⟨target, s1, h1, p, s2, h2, rfl⟩

/-! ## Indexed accesses -/

theorem checkAutoIncrement_eq_ok {a : Bool} {s : State} {u : Unit} :
    checkAutoIncrement a s = .ok u ↔ (a = true → s.cfg.autoIncrement = true) := by
  unfold checkAutoIncrement
  cases a <;> cases hc : s.cfg.autoIncrement <;> simp

theorem storeIndexed_eq_ok {ea : Addr} {e : Pair} {a : Bool} {len : Addr} {s t : State} :
    storeIndexed ea e a len s = .ok t ↔
      (a = true → s.cfg.autoIncrement = true) ∧
        ∃ s1, writeByte ea (s.reg .r0) s = .ok s1 ∧ t = (s1.bumpPair e a).advance len := by
  simp only [storeIndexed, bind_eq_ok, pure_eq_ok, checkAutoIncrement_eq_ok]
  constructor
  · rintro ⟨_, hc, s1, h, rfl⟩; exact ⟨hc, s1, h, rfl⟩
  · rintro ⟨hc, s1, h, rfl⟩; exact ⟨(), hc, s1, h, rfl⟩

theorem loadIndexed_eq_ok {ea : Addr} {e : Pair} {a : Bool} {len : Addr} {s t : State} :
    loadIndexed ea e a len s = .ok t ↔
      (a = true → s.cfg.autoIncrement = true) ∧
        ∃ v s1, readByte ea s = .ok (v, s1) ∧ t = (((s1.setReg .r0 v).setNZ v).bumpPair e a).advance len := by
  simp only [loadIndexed, bind_eq_ok, pure_eq_ok, checkAutoIncrement_eq_ok, Prod.exists]
  constructor
  · rintro ⟨_, hc, v, s1, h, rfl⟩; exact ⟨hc, v, s1, h, rfl⟩
  · rintro ⟨hc, v, s1, h, rfl⟩; exact ⟨(), hc, v, s1, h, rfl⟩

/-! ## Fetching and loading -/

/-- What fetching a byte gives: a read of an address the program has not stored to. -/
theorem fetchByte_eq_ok {a : Addr} {s t : State} {v : Byte} :
    fetchByte a s = .ok (v, t) ↔ s.modified a = false ∧ readByte a s = .ok (v, t) := by
  unfold fetchByte
  cases hm : s.modified a <;> simp

theorem fetchByte_frame {a : Addr} {s t : State} {v : Byte} (h : fetchByte a s = .ok (v, t)) :
    t = { s with freeCount := t.freeCount } :=
  readByte_frame (fetchByte_eq_ok.1 h).2

/-- Nothing but the count of free values changes at a fetch. -/
theorem fetch_frame {s t : State} {i : Instr} (h : fetch s = .ok (i, t)) : t = { s with freeCount := t.freeCount } := by
  simp only [fetch, bind_eq_ok, Prod.exists] at h
  obtain ⟨b0, s1, h0, h⟩ := h
  have e0 := fetchByte_frame h0
  split at h
  · simp only [pure_eq_ok, Prod.mk.injEq] at h
    rw [← h.2]; exact e0
  · simp only [bind_eq_ok, Prod.exists, pure_eq_ok, Prod.mk.injEq] at h
    obtain ⟨b1, s2, h1, _, rfl⟩ := h
    rw [fetchByte_frame h1, e0]
  · simp only [bind_eq_ok, Prod.exists, pure_eq_ok, Prod.mk.injEq] at h
    obtain ⟨b1, s2, h1, b2, s3, h2, _, rfl⟩ := h
    rw [fetchByte_frame h2, fetchByte_frame h1, e0]

/-- After a byte is loaded, its address reads as it and every other address as before. -/
theorem loadByte_byteAt (a b : Addr) (v : Byte) (s : State) :
    (loadByte a v s).byteAt b = if b = a then some v else s.byteAt b := by
  simp only [loadByte, State.byteAt, Memory.lookup_insert]
  by_cases e : b = a
  · simp [e]
  · have : b.toNat ≠ a.toNat := fun h => e (BitVec.eq_of_toNat_eq h)
    simp [e, this]

theorem loadByte_modified (a b : Addr) (v : Byte) (s : State) :
    (loadByte a v s).modified b = (!decide (b = a) && s.modified b) := by
  have e : decide (b.toNat = a.toNat) = decide (b = a) := by simp [BitVec.toNat_inj]
  simp [loadByte, State.modified, AddressSet.has_remove, e]

theorem loadByte_wf {a : Addr} {v : Byte} {s : State} (hm : Memory.wf s.mem = true) (hs : AddressSet.wf s.stored = true) :
    Memory.wf (loadByte a v s).mem = true ∧ AddressSet.wf (loadByte a v s).stored = true :=
  ⟨Memory.wf_insert v hm a.isLt, AddressSet.wf_remove _ hs⟩

@[simp] theorem loadByte_pc (a : Addr) (v : Byte) (s : State) : (loadByte a v s).pc = s.pc := rfl

/-! ## Requests -/

/-- An external request is taken only with `EXT_INTERRUPTS`, and only one that is accepted. -/
theorem takenRequest_accepts {s : State} {n : BitIndex} (h : s.takenRequest = some n) :
    s.cfg.extInterrupts = true ∧ s.accepts n = true := by
  unfold State.takenRequest at h
  split at h
  · rename_i hc _
    have := List.find?_some h
    simp only [Bool.and_eq_true] at this
    exact ⟨hc, this.2⟩
  · cases h

/-- Polling changes nothing but the oracle's list. -/
theorem pollRequests_frame (s : State) : s.pollRequests = { s with requests := s.pollRequests.requests } := by
  unfold State.pollRequests
  split <;> rfl

/-- Without `EXT_INTERRUPTS` there is nothing to poll. -/
theorem pollRequests_off {s : State} (h : s.cfg.extInterrupts = false) : s.pollRequests = s := by
  simp [State.pollRequests, h]

/-! ## The step -/

/-- All a step that goes on can have done: an interrupt entry, or the execution of the fetched instruction. -/
theorem step_eq_next {s t : State} :
    step s = .next t ↔
      (∃ n, s.takenRequest = some n ∧ takeInterrupt n s.pc s.pollRequests = .ok t) ∨
        (s.takenRequest = none ∧ ∃ i s1, fetch s.pollRequests = .ok (i, s1) ∧ exec i s1 = .next t) := by
  unfold step
  cases hr : s.takenRequest with
  | some n => simp [finish_eq_next]
  | none =>
    rcases hf : fetch s.pollRequests with e | ⟨i, s1⟩
    · cases e <;> simp [finish]
    · simp

end Sys2Proof.Machine
end

