-- ==== Sys2Proof/Laws/PerInstr.lean ====
section
/-! SUPPORT. Per-instruction statements: an instruction is encoded in as many bytes as the Length column of the opcode
table gives it (R89, R243). -/

namespace Sys2Proof.Laws.EncodeLength

/-- The encoding of an instruction has the instruction's length. -/
def Statement (i : Instr) : Prop := (encode i).length = i.length

theorem inc (n : Reg) : Statement (.inc n) := rfl
theorem adc (n : Reg) : Statement (.adc n) := rfl
theorem tx0 (n : Reg) : Statement (.tx0 n) := rfl
theorem or (n : Reg) : Statement (.or n) := rfl
theorem and (n : Reg) : Statement (.and n) := rfl
theorem xor (n : Reg) : Statement (.xor n) := rfl
theorem rol (n : Reg) : Statement (.rol n) := rfl
theorem ror (n : Reg) : Statement (.ror n) := rfl
theorem dec (n : Reg) : Statement (.dec n) := rfl
theorem sbc (n : Reg) : Statement (.sbc n) := rfl
theorem add (n : Reg) : Statement (.add n) := rfl
theorem stp (n : BitIndex) : Statement (.stp n) := rfl
theorem btt (n : BitIndex) : Statement (.btt n) := rfl
theorem clp (n : BitIndex) : Statement (.clp n) := rfl
theorem t0x (n : Reg) : Statement (.t0x n) := rfl
theorem cmp (n : Reg) : Statement (.cmp n) := rfl
theorem psh (n : Reg) : Statement (.psh n) := rfl
theorem pop (n : Reg) : Statement (.pop n) := rfl
theorem br0 (n : BitIndex) (offset : Byte) : Statement (.br0 n offset) := rfl
theorem br1 (n : BitIndex) (offset : Byte) : Statement (.br1 n offset) := rfl
theorem dbnz (n : Reg) (offset : Byte) : Statement (.dbnz n offset) := rfl
theorem int (n : BitIndex) : Statement (.int n) := rfl
theorem mul (n : Reg) : Statement (.mul n) := rfl
theorem rsp : Statement .rsp := rfl
theorem rts : Statement .rts := rfl
theorem rti : Statement .rti := rfl
theorem brk : Statement .brk := rfl
theorem jmp (addr : Addr) : Statement (.jmp addr) := rfl
theorem smsk : Statement .smsk := rfl
theorem gmsk : Statement .gmsk := rfl
theorem jsr (addr : Addr) : Statement (.jsr addr) := rfl
theorem upp (e : Pair) : Statement (.upp e) := rfl
theorem unassigned (e : Pair) : Statement (.unassigned e) := rfl
theorem sta (n : Reg) (addr : Addr) : Statement (.sta n addr) := rfl
theorem stx (e : Pair) (a : Bool) : Statement (.stx e a) := rfl
theorem sto (e : Pair) (a : Bool) (offset : Byte) : Statement (.sto e a offset) := rfl
theorem ldi (n : Reg) (imm : Byte) : Statement (.ldi n imm) := rfl
theorem lda (n : Reg) (addr : Addr) : Statement (.lda n addr) := rfl
theorem ldx (e : Pair) (a : Bool) : Statement (.ldx e a) := rfl
theorem ldo (e : Pair) (a : Bool) (offset : Byte) : Statement (.ldo e a offset) := rfl
theorem sti : Statement .sti := rfl
theorem cli : Statement .cli := rfl
theorem stz : Statement .stz := rfl
theorem clz : Statement .clz := rfl
theorem stn : Statement .stn := rfl
theorem cln : Statement .cln := rfl
theorem stc : Statement .stc := rfl
theorem clc : Statement .clc := rfl
theorem nop : Statement .nop := rfl
theorem brz (offset : Byte) : Statement (.brz offset) := rfl
theorem brnz (offset : Byte) : Statement (.brnz offset) := rfl
theorem brlz (offset : Byte) : Statement (.brlz offset) := rfl
theorem brgez (offset : Byte) : Statement (.brgez offset) := rfl
theorem brc (offset : Byte) : Statement (.brc offset) := rfl
theorem brnc (offset : Byte) : Statement (.brnc offset) := rfl
theorem jmpz (addr : Addr) : Statement (.jmpz addr) := rfl
theorem jmpnz (addr : Addr) : Statement (.jmpnz addr) := rfl
theorem jmplz (addr : Addr) : Statement (.jmplz addr) := rfl
theorem jmpgez (addr : Addr) : Statement (.jmpgez addr) := rfl
theorem jmpc (addr : Addr) : Statement (.jmpc addr) := rfl
theorem jmpnc (addr : Addr) : Statement (.jmpnc addr) := rfl
theorem clr : Statement .clr := rfl

end Sys2Proof.Laws.EncodeLength
end

