-- ==== Sys2Proof/Tests/Slice0.lean ====
section
/-! SUPPORT. The model's own tests. Expected values are those of 95_test_vectors.md (named by their numbers there) and of
the encodings of 30_encoding.md; the witnesses show that the hypotheses of the obligations can be met. -/

open Sys2Proof
open Sys2Proof.Machine

namespace Sys2Proof.Tests

/-! ## Well-formedness -/

theorem test_wellFormed_refuses_alias : Instr.clr.wellFormed = false := by decide
theorem test_wellFormed_refuses_conditional_jump : (Instr.jmpz 0x1234).wellFormed = false := by decide
theorem test_wellFormed_refuses_unassigned : (Instr.unassigned .p4).wellFormed = false := by decide
theorem test_wellFormed_accepts_hardware : (Instr.ldo .p6 true 0xFF).wellFormed = true := by decide

/-! ## Decoding: words written out from R81, R87 and R88, and the printed bytes of the pseudo-mnemonics -/

theorem test_decode_inc : decode [0b00000_011] = .ok (.inc .r3, []) := rfl
theorem test_decode_adc : decode [0b00001_101] = .ok (.adc .r5, []) := rfl
theorem test_decode_tx0 : decode [0b00010_110] = .ok (.tx0 .r6, []) := rfl
theorem test_decode_or : decode [0b00011_010] = .ok (.or .r2, []) := rfl
theorem test_decode_and : decode [0b00100_100] = .ok (.and .r4, []) := rfl
theorem test_decode_xor : decode [0b00101_111] = .ok (.xor .r7, []) := rfl
theorem test_decode_rol : decode [0b00110_001] = .ok (.rol .r1, []) := rfl
theorem test_decode_ror : decode [0b00111_000] = .ok (.ror .r0, []) := rfl
theorem test_decode_dec : decode [0b01000_100] = .ok (.dec .r4, []) := rfl
theorem test_decode_sbc : decode [0b01001_001] = .ok (.sbc .r1, []) := rfl
theorem test_decode_add : decode [0b01010_110] = .ok (.add .r6, []) := rfl
theorem test_decode_stp : decode [0b01011_011] = .ok (.stp 3, []) := rfl
theorem test_decode_btt : decode [0b01100_111] = .ok (.btt 7, []) := rfl
theorem test_decode_clp : decode [0b01101_101] = .ok (.clp 5, []) := rfl
theorem test_decode_t0x : decode [0b01110_110] = .ok (.t0x .r6, []) := rfl
theorem test_decode_cmp : decode [0b01111_011] = .ok (.cmp .r3, []) := rfl
theorem test_decode_psh : decode [0b10000_010] = .ok (.psh .r2, []) := rfl
theorem test_decode_pop : decode [0b10001_111] = .ok (.pop .r7, []) := rfl
theorem test_decode_br0 : decode [0b10010_110, 0x80] = .ok (.br0 6 0x80, []) := rfl
theorem test_decode_br1 : decode [0b10011_001, 0xFE] = .ok (.br1 1 0xFE, []) := rfl
theorem test_decode_dbnz : decode [0b10100_001, 0xFF] = .ok (.dbnz .r1 0xFF, []) := rfl
theorem test_decode_int : decode [0b10101_011] = .ok (.int 3, []) := rfl
theorem test_decode_mul : decode [0b10110_010] = .ok (.mul .r2, []) := rfl
theorem test_decode_rsp : decode [0b10111_000] = .ok (.rsp, []) := rfl
theorem test_decode_rts : decode [0b10111_001] = .ok (.rts, []) := rfl
theorem test_decode_rti : decode [0b10111_010] = .ok (.rti, []) := rfl
theorem test_decode_brk : decode [0b10111_011] = .ok (.brk, []) := rfl
theorem test_decode_jmp : decode [0b10111_100, 0x34, 0x12] = .ok (.jmp 0x1234, []) := rfl
theorem test_decode_smsk : decode [0b10111_101] = .ok (.smsk, []) := rfl
theorem test_decode_gmsk : decode [0b10111_110] = .ok (.gmsk, []) := rfl
theorem test_decode_jsr : decode [0b10111_111, 0x00, 0x03] = .ok (.jsr 0x0300, []) := rfl
theorem test_decode_upp : decode [0b11000_110] = .ok (.upp .p6, []) := rfl
theorem test_decode_unassigned : decode [0b11000_011] = .ok (.unassigned .p2, []) := rfl
theorem test_decode_sta : decode [0b11001_101, 0x00, 0x20] = .ok (.sta .r5 0x2000, []) := rfl
theorem test_decode_stx : decode [0b11010_011] = .ok (.stx .p2 true, []) := rfl
theorem test_decode_sto : decode [0b11011_100, 0x10] = .ok (.sto .p4 false 0x10, []) := rfl
theorem test_decode_ldi : decode [0b11100_011, 0x80] = .ok (.ldi .r3 0x80, []) := rfl
theorem test_decode_lda : decode [0b11101_001, 0x00, 0x20] = .ok (.lda .r1 0x2000, []) := rfl
theorem test_decode_ldx : decode [0b11110_110] = .ok (.ldx .p6 false, []) := rfl
theorem test_decode_ldo : decode [0b11111_101, 0x02] = .ok (.ldo .p4 true 0x02, []) := rfl
theorem test_decode_sti : decode [0x5B] = .ok (.stp 3, []) ∧ encode .sti = [0x5B] := ⟨rfl, rfl⟩
theorem test_decode_cli : decode [0x6B] = .ok (.clp 3, []) ∧ encode .cli = [0x6B] := ⟨rfl, rfl⟩
theorem test_decode_stz : decode [0x58] = .ok (.stp 0, []) ∧ encode .stz = [0x58] := ⟨rfl, rfl⟩
theorem test_decode_clz : decode [0x68] = .ok (.clp 0, []) ∧ encode .clz = [0x68] := ⟨rfl, rfl⟩
theorem test_decode_stn : decode [0x5A] = .ok (.stp 2, []) ∧ encode .stn = [0x5A] := ⟨rfl, rfl⟩
theorem test_decode_cln : decode [0x6A] = .ok (.clp 2, []) ∧ encode .cln = [0x6A] := ⟨rfl, rfl⟩
theorem test_decode_stc : decode [0x59] = .ok (.stp 1, []) ∧ encode .stc = [0x59] := ⟨rfl, rfl⟩
theorem test_decode_clc : decode [0x69] = .ok (.clp 1, []) ∧ encode .clc = [0x69] := ⟨rfl, rfl⟩
theorem test_decode_nop : decode [0xBB] = .ok (.brk, []) ∧ encode .nop = [0xBB] := ⟨rfl, rfl⟩
theorem test_decode_brz : decode [0x98, 0x07] = .ok (.br1 0 7, []) ∧ encode (.brz 7) = [0x98, 0x07] := ⟨rfl, rfl⟩
theorem test_decode_brnz : decode [0x90, 0x07] = .ok (.br0 0 7, []) ∧ encode (.brnz 7) = [0x90, 0x07] := ⟨rfl, rfl⟩
theorem test_decode_brlz : decode [0x9A, 0x07] = .ok (.br1 2 7, []) ∧ encode (.brlz 7) = [0x9A, 0x07] := ⟨rfl, rfl⟩
theorem test_decode_brgez : decode [0x92, 0x07] = .ok (.br0 2 7, []) ∧ encode (.brgez 7) = [0x92, 0x07] := ⟨rfl, rfl⟩
theorem test_decode_brc : decode [0x99, 0x07] = .ok (.br1 1 7, []) ∧ encode (.brc 7) = [0x99, 0x07] := ⟨rfl, rfl⟩
theorem test_decode_brnc : decode [0x91, 0x07] = .ok (.br0 1 7, []) ∧ encode (.brnc 7) = [0x91, 0x07] := ⟨rfl, rfl⟩
theorem test_decode_clr : decode [0x28] = .ok (.xor .r0, []) ∧ encode .clr = [0x28] := ⟨rfl, rfl⟩
theorem test_decode_jmpz :
    decodeMany 2 [0x90, 0x05, 0xBC, 0x20, 0x01] = .ok ([.br0 0 5, .jmp 0x0120], []) ∧ encode (.jmpz 0x0120) = [0x90, 0x05, 0xBC, 0x20, 0x01] := ⟨rfl, rfl⟩
theorem test_decode_jmpnz :
    decodeMany 2 [0x98, 0x05, 0xBC, 0x20, 0x01] = .ok ([.br1 0 5, .jmp 0x0120], []) ∧ encode (.jmpnz 0x0120) = [0x98, 0x05, 0xBC, 0x20, 0x01] := ⟨rfl, rfl⟩
theorem test_decode_jmplz :
    decodeMany 2 [0x92, 0x05, 0xBC, 0x20, 0x01] = .ok ([.br0 2 5, .jmp 0x0120], []) ∧ encode (.jmplz 0x0120) = [0x92, 0x05, 0xBC, 0x20, 0x01] := ⟨rfl, rfl⟩
theorem test_decode_jmpgez :
    decodeMany 2 [0x9A, 0x05, 0xBC, 0x20, 0x01] = .ok ([.br1 2 5, .jmp 0x0120], []) ∧ encode (.jmpgez 0x0120) = [0x9A, 0x05, 0xBC, 0x20, 0x01] := ⟨rfl, rfl⟩
theorem test_decode_jmpc :
    decodeMany 2 [0x91, 0x05, 0xBC, 0x20, 0x01] = .ok ([.br0 1 5, .jmp 0x0120], []) ∧ encode (.jmpc 0x0120) = [0x91, 0x05, 0xBC, 0x20, 0x01] := ⟨rfl, rfl⟩
theorem test_decode_jmpnc :
    decodeMany 2 [0x99, 0x05, 0xBC, 0x20, 0x01] = .ok ([.br1 1 5, .jmp 0x0120], []) ∧ encode (.jmpnc 0x0120) = [0x99, 0x05, 0xBC, 0x20, 0x01] := ⟨rfl, rfl⟩

theorem test_decode_wants_operands : decode [0xBC, 0x34] = .error .missingOperandBytes := rfl
theorem test_tableWord_first_byte_low : decodeTableWord 24 0x1234BC = some (.jmp 0x1234) := by decide

/-! ## One step each -/

/-- The state the vectors start from: the reset machine with a memory image, registers and PSR. -/
def rig (mem : List Host.Cell) (r : Regs) (psr : Byte) : State := State.resetWith Config.default mem r psr []

/-- Registers 0 to 3 given, the others zero. -/
def r4 (a b c d : Byte) : Regs := ⟨a, b, c, d, 0, 0, 0, 0⟩

/-- Registers 4 to 7 given, R0 too, the others zero. -/
def r5 (z a b c d : Byte) : Regs := ⟨z, 0, 0, 0, a, b, c, d⟩

/-- What is seen of a next state. -/
def after {α : Type} (r : Result) (f : State → α) : Option α :=
  match r with
  | .next t => some (f t)
  | _ => none

/-- A register, PSR and the program counter. -/
def seen (n : Reg) (t : State) : Byte × Byte × Addr := (t.reg n, t.psr, t.pc)

/-- A1. -/
theorem test_inc_carry_from_sign : after (exec (.inc .r3) (rig [] (r4 0 0 0 0x7F) 0)) (seen .r3) = some (0x80, 0x04, 0x0101) := by decide
/-- A3. -/
theorem test_inc_keeps_other_flags : after (exec (.inc .r0) (rig [] (r4 0 0 0 0) 0xFF)) (seen .r0) = some (0x01, 0xF8, 0x0101) := by decide
/-- A5. -/
theorem test_adc_adds_carry : after (exec (.adc .r1) (rig [] (r4 0xFF 0 0 0) 0x02)) (seen .r0) = some (0x00, 0x03, 0x0101) := by decide
/-- A6. -/
theorem test_adc_doubles : after (exec (.adc .r0) (rig [] (r4 0x81 0 0 0) 0x00)) (seen .r0) = some (0x02, 0x02, 0x0101) := by decide
/-- A8. -/
theorem test_tx0_keeps_carry : after (exec (.tx0 .r5) (rig [] (r5 0x11 0 0x80 0 0) 0x02)) (seen .r0) = some (0x80, 0x06, 0x0101) := by decide
/-- A10. -/
theorem test_or : after (exec (.or .r2) (rig [] (r4 0x0F 0 0xF0 0) 0x03)) (seen .r0) = some (0xFF, 0x06, 0x0101) := by decide
/-- A12. -/
theorem test_and : after (exec (.and .r2) (rig [] (r4 0x0F 0 0xF0 0) 0x06)) (seen .r0) = some (0x00, 0x03, 0x0101) := by decide
/-- A14. -/
theorem test_xor : after (exec (.xor .r7) (rig [] (r5 0xAA 0 0 0 0xFF) 0x00)) (seen .r0) = some (0x55, 0x00, 0x0101) := by decide
/-- A16. -/
theorem test_rol_out : after (exec (.rol .r1) (rig [] (r4 0 0x80 0 0) 0x00)) (seen .r1) = some (0x00, 0x03, 0x0101) := by decide
/-- A17. -/
theorem test_rol_in : after (exec (.rol .r1) (rig [] (r4 0 0x80 0 0) 0x02)) (seen .r1) = some (0x01, 0x02, 0x0101) := by decide
/-- A20. -/
theorem test_ror_in : after (exec (.ror .r1) (rig [] (r4 0 0x01 0 0) 0x02)) (seen .r1) = some (0x80, 0x06, 0x0101) := by decide
/-- A21. -/
theorem test_ror : after (exec (.ror .r0) (rig [] (r4 0x82 0 0 0) 0x00)) (seen .r0) = some (0x41, 0x00, 0x0101) := by decide
/-- A23. -/
theorem test_dec_zero : after (exec (.dec .r4) (rig [] (r5 0 0 0 0 0) 0x00)) (seen .r4) = some (0xFF, 0x04, 0x0101) := by decide
/-- A24. -/
theorem test_dec_sign : after (exec (.dec .r4) (rig [] (r5 0 0x80 0 0 0) 0x00)) (seen .r4) = some (0x7F, 0x02, 0x0101) := by decide
/-- A27. -/
theorem test_sbc_borrow : after (exec (.sbc .r1) (rig [] (r4 0x03 0x05 0 0) 0x00)) (seen .r0) = some (0xFE, 0x04, 0x0101) := by decide
/-- A31. -/
theorem test_sbc_carry_in : after (exec (.sbc .r1) (rig [] (r4 0 0 0 0) 0x02)) (seen .r0) = some (0x01, 0x00, 0x0101) := by decide
/-- A33. -/
theorem test_add_ignores_carry : after (exec (.add .r1) (rig [] (r4 0x7F 0x01 0 0) 0x02)) (seen .r0) = some (0x80, 0x04, 0x0101) := by decide
/-- A34. -/
theorem test_add_doubles : after (exec (.add .r0) (rig [] (r4 0x80 0 0 0) 0x00)) (seen .r0) = some (0x00, 0x03, 0x0101) := by decide
/-- A36. -/
theorem test_stp : after (exec (.stp 7) (rig [] (r4 0 0 0 0) 0x0F)) (seen .r0) = some (0x00, 0x8F, 0x0101) := by decide
/-- A39. -/
theorem test_btt_sign : after (exec (.btt 7) (rig [] (r4 0x80 0 0 0) 0x02)) (seen .r0) = some (0x80, 0x06, 0x0101) := by decide
/-- A40. -/
theorem test_btt_clear : after (exec (.btt 3) (rig [] (r4 0xF7 0 0 0) 0x00)) (seen .r0) = some (0xF7, 0x05, 0x0101) := by decide
/-- A41. -/
theorem test_clp : after (exec (.clp 3) (rig [] (r4 0 0 0 0) 0xFF)) (seen .r0) = some (0x00, 0xF7, 0x0101) := by decide
/-- A43. -/
theorem test_t0x : after (exec (.t0x .r6) (rig [] (r5 0 0 0 0x55 0) 0x06)) (seen .r6) = some (0x00, 0x03, 0x0101) := by decide
/-- A48. -/
theorem test_cmp_zero : after (exec (.cmp .r1) (rig [] (r4 0x05 0 0 0) 0x00)) (seen .r0) = some (0x05, 0x00, 0x0101) := by decide
/-- S10. -/
theorem test_br0_back : after (exec (.br0 3 0x80) (rig [] (r4 0 0 0 0) 0x00)) (seen .r0) = some (0x00, 0x00, 0x0080) := by decide
/-- S6. -/
theorem test_br0_not_taken : after (exec (.br0 0 0x05) (rig [] (r4 0 0 0 0) 0x01)) (seen .r0) = some (0x00, 0x01, 0x0102) := by decide
/-- S7. -/
theorem test_br1_back : after (exec (.br1 1 0xFE) (rig [] (r4 0 0 0 0) 0x02)) (seen .r0) = some (0x00, 0x02, 0x00FE) := by decide
/-- S8. -/
theorem test_br1_not_taken : after (exec (.br1 1 0xFE) (rig [] (r4 0 0 0 0) 0x00)) (seen .r0) = some (0x00, 0x00, 0x0102) := by decide
/-- S15. -/
theorem test_dbnz_ends : after (exec (.dbnz .r1 0xFF) (rig [] (r4 0 0x01 0 0) 0x00)) (seen .r1) = some (0x00, 0x03, 0x0102) := by decide
/-- S16. -/
theorem test_dbnz_from_zero : after (exec (.dbnz .r1 0xFF) (rig [] (r4 0 0 0 0) 0x00)) (seen .r1) = some (0xFF, 0x04, 0x00FF) := by decide
/-- X2. -/
theorem test_int_disabled : after (exec (.int 3) (rig [] (r4 0 0 0 0) 0x07)) (seen .r0) = some (0x00, 0x07, 0x0101) := by decide
/-- X14. -/
theorem test_brk : after (exec (.brk) (rig [] (r4 0 0 0 0) 0xA5)) (seen .r0) = some (0x00, 0xA5, 0x0101) := by decide
/-- X15. -/
theorem test_jmp : after (exec (.jmp 0x1234) (rig [] (r4 0 0 0 0) 0x00)) (seen .r0) = some (0x00, 0x00, 0x1234) := by decide
/-- X19. -/
theorem test_gmsk : after (exec (.gmsk) (rig [] (r4 0 0 0 0) 0x05)) (seen .r0) = some (0x01, 0x00, 0x0101) := by decide
/-- L13. -/
theorem test_ldi : after (exec (.ldi .r3 0x00) (rig [] (r4 0 0 0 0x11) 0x04)) (seen .r3) = some (0x00, 0x01, 0x0102) := by decide

/-- X1: memory with vector 3, interrupts on, mask bit 3 set. -/
def intRig : State :=
  { rig [(0xFFF6, 0x34), (0xFFF7, 0x12)] (r4 0 0 0 0) 0x0F with imr := 0x09 }

/-- A46' at width 9. -/
theorem test_cmp_width_nine :
    after (exec (.cmp .r1) ({ rig [] (r4 0x03 0x05 0 0) 0 with cfg := { Config.default with subNegWidth := .nine } }))
      (fun t => (t.psr)) = some ((0x06 : Byte)) := by decide
/-- S2. -/
theorem test_psh_wraps :
    after (exec (.psh .r0) ({ rig [] (r4 0x11 0 0 0) 0 with sp := 0 }))
      (fun t => (t.sp, t.byteAt 0xFFFF, t.modified 0xFFFF)) = some ((0xFFFF : Addr), some (0x11 : Byte), true) := by decide
/-- S4. -/
theorem test_pop_wraps :
    after (exec (.pop .r3) ({ rig [(0xFFFF, 0x42)] (r4 0 0 0 0) 0x01 with sp := 0xFFFF }))
      (fun t => (t.reg .r3, t.sp, t.psr)) = some ((0x42 : Byte), (0 : Addr), (0x01 : Byte)) := by decide
/-- X1. -/
theorem test_int_taken :
    after (exec (.int 3) (intRig))
      (fun t => (t.pc, t.sp, t.psr, t.byteAt 0x7E, t.byteAt 0x7D, t.byteAt 0x7C)) = some ((0x1234 : Addr), (0x7C : Addr), (0x07 : Byte), some (0x0F : Byte), some (0x01 : Byte), some (0x01 : Byte)) := by decide
/-- X6. -/
theorem test_mul_writes_both_halves :
    after (exec (.mul .r2) (rig [] (r4 0xFF 0 0xFF 0) 0x01))
      (fun t => (t.reg .r0, t.reg .r1, t.psr)) = some ((0x01 : Byte), (0xFE : Byte), (0x00 : Byte)) := by decide
/-- X9. -/
theorem test_mul_by_r1_reads_first :
    after (exec (.mul .r1) (rig [] (r4 0x03 0x40 0 0) 0x00))
      (fun t => (t.reg .r0, t.reg .r1, t.psr)) = some ((0xC0 : Byte), (0x00 : Byte), (0x00 : Byte)) := by decide
/-- X10. -/
theorem test_rsp_moves :
    after (exec (.rsp) (rig [] (r4 0x34 0x12 0 0) 0))
      (fun t => (t.sp)) = some ((0x1234 : Addr)) := by decide
/-- X11. -/
theorem test_rsp_default :
    after (exec (.rsp) ({ rig [] (r4 0x34 0x12 0 0) 0 with
        sp := 0x55, cfg := { Config.default with allowStackAddressMove := false } }))
      (fun t => (t.sp)) = some ((0x007F : Addr)) := by decide
/-- X12. -/
theorem test_rts :
    after (exec (.rts) ({ rig [(0x7D, 0x03), (0x7E, 0x02)] (r4 0 0 0 0) 0 with sp := 0x7D }))
      (fun t => (t.pc, t.sp)) = some ((0x0203 : Addr), (0x007F : Addr)) := by decide
/-- X13. -/
theorem test_rti :
    after (exec (.rti) ({ rig [(0x7C, 0x01), (0x7D, 0x01), (0x7E, 0x0F)] (r4 0 0 0 0) 7 with sp := 0x7C }))
      (fun t => (t.pc, t.psr, t.sp)) = some ((0x0101 : Addr), (0x0F : Byte), (0x007F : Addr)) := by decide
/-- X16. -/
theorem test_smsk :
    after (exec (.smsk) (rig [] (r4 0xF0 0 0 0) 0))
      (fun t => (t.imr, t.reg .r0)) = some ((0xF1 : Byte), (0xF0 : Byte)) := by decide
/-- X20. -/
theorem test_jsr :
    after (exec (.jsr 0x0300) ({ rig [] (r4 0 0 0 0) 0 with pc := 0x01FE }))
      (fun t => (t.pc, t.sp, t.byteAt 0x7E, t.byteAt 0x7D)) = some ((0x0300 : Addr), (0x7D : Addr), some (0x02 : Byte), some (0x01 : Byte)) := by decide
/-- L1. -/
theorem test_upp_carries_into_odd :
    after (exec (.upp .p2) (rig [] (r4 0 0 0xFF 0) 5))
      (fun t => (t.reg .r2, t.reg .r3, t.psr)) = some ((0x00 : Byte), (0x01 : Byte), (0x05 : Byte)) := by decide
/-- L2. -/
theorem test_upp_wraps :
    after (exec (.upp .p6) (rig [] (r5 0 0 0 0xFF 0xFF) 0))
      (fun t => (t.reg .r6, t.reg .r7, t.psr)) = some ((0x00 : Byte), (0x00 : Byte), (0x02 : Byte)) := by decide
/-- L4. -/
theorem test_unassigned : exec (.unassigned .p2) (rig [] (r4 0 0 0 0) 0) = .refused .unassignedOpcode := rfl
/-- L5. -/
theorem test_sta :
    after (exec (.sta .r5 0x2000) (rig [] (r5 0 0 0x77 0 0) 0))
      (fun t => (t.byteAt 0x2000, t.pc)) = some (some (0x77 : Byte), (0x0103 : Addr)) := by decide
/-- L9. -/
theorem test_stx_wraps_without_carry :
    after (exec (.stx .p6 true) (rig [] (r5 0x01 0 0 0xFF 0xFF) 0))
      (fun t => (t.byteAt 0xFFFF, t.pair .p6, t.psr, t.pc)) = some (some (0x01 : Byte), (0 : Addr), (0 : Byte), (0x0101 : Addr)) := by decide
/-- L11. -/
theorem test_sto_wraps :
    after (exec (.sto .p4 true 0xFF) (rig [] (r5 0x55 0x80 0xFF 0 0) 0))
      (fun t => (t.byteAt 0x7F, t.pair .p4, t.pc)) = some (some (0x55 : Byte), (0xFF81 : Addr), (0x0102 : Addr)) := by decide
/-- L15. -/
theorem test_lda :
    after (exec (.lda .r1 0x2000) (rig [(0x2000, 0xFE)] (r4 0 0 0 0) 2))
      (fun t => (t.reg .r1, t.psr, t.pc)) = some ((0xFE : Byte), (0x06 : Byte), (0x0103 : Addr)) := by decide
/-- L17. -/
theorem test_ldx_increments :
    after (exec (.ldx .p2 true) (rig [(0x03FF, 0x80)] (r4 0 0 0xFF 0x03) 0))
      (fun t => (t.reg .r0, t.pair .p2, t.psr)) = some ((0x80 : Byte), (0x0400 : Addr), (0x04 : Byte)) := by decide
/-- L18. -/
theorem test_ldx_over_its_own_pair :
    after (exec (.ldx .p0 true) (rig [(0x0210, 0xFF)] (r4 0x10 0x02 0 0) 0))
      (fun t => (t.reg .r0, t.reg .r1, t.psr)) = some ((0x00 : Byte), (0x03 : Byte), (0x04 : Byte)) := by decide
/-- L21. -/
theorem test_ldo_increments :
    after (exec (.ldo .p4 true 0x02) (rig [(0x0401, 0xC0)] (r5 0 0xFF 0x03 0 0) 0))
      (fun t => (t.reg .r0, t.pair .p4, t.psr)) = some ((0xC0 : Byte), (0x0400 : Addr), (0x04 : Byte)) := by decide
/-- L22. -/
theorem test_ldo_wraps :
    after (exec (.ldo .p6 false 0xFF) (rig [(0x00FE, 0x21)] (r5 0 0 0 0xFF 0xFF) 0))
      (fun t => (t.reg .r0, t.pc)) = some ((0x21 : Byte), (0x0102 : Addr)) := by decide
/-- L23. -/
theorem test_stx_without_autoincrement :
    exec (.stx .p0 true) { rig [] (r4 0 0 0 0) 0 with cfg := { Config.default with autoIncrement := false } } =
      .refused .autoincrementNotImplemented := rfl

/-! Pseudo-mnemonics: the stated results of 95_test_vectors.md section 1 and of R221 to R242. -/

theorem test_sti : after (exec .sti (rig [] (r4 0 0 0 0) 0x00)) (fun t => (t.psr, t.pc)) = some (0x08, 0x0101) := by decide
theorem test_cli : after (exec .cli (rig [] (r4 0 0 0 0) 0xFF)) (fun t => (t.psr, t.pc)) = some (0xF7, 0x0101) := by decide
theorem test_stz : after (exec .stz (rig [] (r4 0 0 0 0) 0x00)) (fun t => (t.psr, t.pc)) = some (0x01, 0x0101) := by decide
theorem test_clz : after (exec .clz (rig [] (r4 0 0 0 0) 0xFF)) (fun t => (t.psr, t.pc)) = some (0xFE, 0x0101) := by decide
theorem test_stn : after (exec .stn (rig [] (r4 0 0 0 0) 0x00)) (fun t => (t.psr, t.pc)) = some (0x04, 0x0101) := by decide
theorem test_cln : after (exec .cln (rig [] (r4 0 0 0 0) 0xFF)) (fun t => (t.psr, t.pc)) = some (0xFB, 0x0101) := by decide
theorem test_stc : after (exec .stc (rig [] (r4 0 0 0 0) 0x00)) (fun t => (t.psr, t.pc)) = some (0x02, 0x0101) := by decide
theorem test_clc : after (exec .clc (rig [] (r4 0 0 0 0) 0xFF)) (fun t => (t.psr, t.pc)) = some (0xFD, 0x0101) := by decide
theorem test_nop : after (exec .nop (rig [] (r4 0 0 0 0) 0xA5)) (fun t => (t.psr, t.pc)) = some (0xA5, 0x0101) := by decide
/-- A15. -/
theorem test_clr : after (exec .clr (rig [] (r4 0x5A 0 0 0) 0x0E)) (seen .r0) = some (0x00, 0x0B, 0x0101) := by decide
theorem test_brz :
    after (exec (.brz 0x07) (rig [] (r4 0 0 0 0) 0x01)) State.pc = some 0x0107 ∧
      after (exec (.brz 0x07) (rig [] (r4 0 0 0 0) 0x00)) State.pc = some 0x0102 := by decide
theorem test_brnz :
    after (exec (.brnz 0x07) (rig [] (r4 0 0 0 0) 0x00)) State.pc = some 0x0107 ∧
      after (exec (.brnz 0x07) (rig [] (r4 0 0 0 0) 0x01)) State.pc = some 0x0102 := by decide
theorem test_brlz :
    after (exec (.brlz 0x07) (rig [] (r4 0 0 0 0) 0x04)) State.pc = some 0x0107 ∧
      after (exec (.brlz 0x07) (rig [] (r4 0 0 0 0) 0x00)) State.pc = some 0x0102 := by decide
theorem test_brgez :
    after (exec (.brgez 0x07) (rig [] (r4 0 0 0 0) 0x00)) State.pc = some 0x0107 ∧
      after (exec (.brgez 0x07) (rig [] (r4 0 0 0 0) 0x04)) State.pc = some 0x0102 := by decide
theorem test_brc :
    after (exec (.brc 0x07) (rig [] (r4 0 0 0 0) 0x02)) State.pc = some 0x0107 ∧
      after (exec (.brc 0x07) (rig [] (r4 0 0 0 0) 0x00)) State.pc = some 0x0102 := by decide
theorem test_brnc :
    after (exec (.brnc 0x07) (rig [] (r4 0 0 0 0) 0x00)) State.pc = some 0x0107 ∧
      after (exec (.brnc 0x07) (rig [] (r4 0 0 0 0) 0x02)) State.pc = some 0x0102 := by decide
theorem test_jmpz :
    after (exec (.jmpz 0x0120) (rig [] (r4 0 0 0 0) 0x01)) State.pc = some 0x0120 ∧
      after (exec (.jmpz 0x0120) (rig [] (r4 0 0 0 0) 0x00)) State.pc = some 0x0105 := by decide
theorem test_jmpnz :
    after (exec (.jmpnz 0x0120) (rig [] (r4 0 0 0 0) 0x00)) State.pc = some 0x0120 ∧
      after (exec (.jmpnz 0x0120) (rig [] (r4 0 0 0 0) 0x01)) State.pc = some 0x0105 := by decide
theorem test_jmplz :
    after (exec (.jmplz 0x0120) (rig [] (r4 0 0 0 0) 0x04)) State.pc = some 0x0120 ∧
      after (exec (.jmplz 0x0120) (rig [] (r4 0 0 0 0) 0x00)) State.pc = some 0x0105 := by decide
theorem test_jmpgez :
    after (exec (.jmpgez 0x0120) (rig [] (r4 0 0 0 0) 0x00)) State.pc = some 0x0120 ∧
      after (exec (.jmpgez 0x0120) (rig [] (r4 0 0 0 0) 0x04)) State.pc = some 0x0105 := by decide
theorem test_jmpc :
    after (exec (.jmpc 0x0120) (rig [] (r4 0 0 0 0) 0x02)) State.pc = some 0x0120 ∧
      after (exec (.jmpc 0x0120) (rig [] (r4 0 0 0 0) 0x00)) State.pc = some 0x0105 := by decide
theorem test_jmpnc :
    after (exec (.jmpnc 0x0120) (rig [] (r4 0 0 0 0) 0x00)) State.pc = some 0x0120 ∧
      after (exec (.jmpnc 0x0120) (rig [] (r4 0 0 0 0) 0x02)) State.pc = some 0x0105 := by decide

/-! Steps. -/

theorem test_step_fetches : after (step (rig [(0x0100, 0x05)] (r4 0 0 0 0) 0)) (seen .r5) = some (0x01, 0x00, 0x0101) := by
  decide
theorem test_step_after_reset_runs_placed_word :
    after (step (State.reset.withFetchWord 16 0x80E3)) (seen .r3) = some (0x80, 0x04, 0x0102) := by decide
theorem test_step_at_reset_faults : step State.reset = .fault (.unwrittenByte 0x0100) := rfl
theorem test_step_takes_request :
    after (step { intRig with cfg := { Config.default with extInterrupts := true }, requests := [0x08] })
      (fun t => (t.pc, t.byteAt 0x7C, t.requests)) = some ((0x1234 : Addr), some (0x00 : Byte), []) := by decide

/-! ## Witnesses: the hypotheses of each obligation are met by concrete states and operands -/

/-- A device, a read-only byte and an address with nothing behind it, side by side. -/
def mapped : Config :=
  { Config.default with memMap := [⟨0x2000, 1, .device⟩, ⟨0x2001, 1, .readOnly⟩, ⟨0x2002, 1, .absent⟩] }

/-- A machine with that map: the read-only byte holds 0x5A, and STACK is given. -/
def mappedRig (sp : Addr) : State := { rig [(0x2001, 0x5A)] (r4 0 0 0 0) 0 with cfg := mapped, sp := sp }

/-- A machine built for external requests, with the code 05 at the reset address. -/
def extRig (psr : Byte) (requests : List Byte) : State :=
  { rig [(0x0100, 0x05), (0xFFF0, 0x00), (0xFFF1, 0x80), (0xFFF6, 0x34), (0xFFF7, 0x12)] (r4 0 0 0 0) psr with
    cfg := { Config.default with extInterrupts := true }, imr := 0x09, requests := requests }

theorem witness_DecodeOfEncodeIsTheInstruction :
    (Instr.sto .p6 true 0xFF).wellFormed = true ∧ (Instr.jsr 0xFFFF).wellFormed = true := by decide

theorem witness_EncodeOfDecodeIsTheBytes :
    decode [0xFF, 0xFF, 0x03] = .ok (.ldo .p6 true 0xFF, [0x03]) ∧ decode [0xC7] = .ok (.unassigned .p6, []) :=
  ⟨rfl, rfl⟩

/-- Each length, and a list one byte too short. -/
theorem witness_LengthFollowsTheFirstByte :
    decode [0xBB] = .ok (.brk, []) ∧ decode [0xE7, 0x01] = .ok (.ldi .r7 1, []) ∧
      decode [0xEF, 0x01, 0x02] = .ok (.lda .r7 0x0201, []) ∧ decode [0xEF, 0x01] = .error .missingOperandBytes :=
  ⟨rfl, rfl, rfl, rfl⟩

theorem witness_UnassignedBytesAreRefused :
    decodeBytes 0xC1 0 0 = .unassigned .p0 ∧ decodeBytes 0xC7 0 0 = .unassigned .p6 ∧
      decodeBytes 0xC6 0 0 = .upp .p6 := by decide

/-- The two ends of the range and one past each. -/
theorem witness_AssembledOffsetReachesTarget :
    branchOffset 0x0010 0x008F = some 0x7F ∧ branchOffset 0x0010 0xFF90 = some 0x80 ∧
      branchOffset 0x0010 0x0090 = none ∧ branchOffset 0x0010 0xFF8F = none := by decide

theorem witness_StepRunsTheDecodedInstruction :
    (extRig 0 [0x00]).takenRequest = none ∧
      fetch (extRig 0 [0x00]).pollRequests = .ok (.inc .r5, (extRig 0 [0x00]).pollRequests) := ⟨by decide, rfl⟩

/-- Three bytes whose last lies past the top of the address space. -/
theorem witness_StepRunsTheInstructionInMemory :
    (Instr.jmp 0x1234).wellFormed = true ∧
    (let s := { rig [(0x0000, 0x12), (0xFFFE, 0xBC), (0xFFFF, 0x34)] (r4 0 0 0 0) 0 with pc := 0xFFFE };
      s.takenRequest = none ∧ BytesAt s s.pc (encode (.jmp 0x1234))) := by
  refine ⟨by decide, by decide, ⟨by decide, by decide, by decide, ?_⟩⟩
  exact ⟨by decide, by decide, by decide, by decide, by decide, by decide, trivial⟩

theorem witness_PlacedWordRunsNext :
    decodeTableWord 24 0xFFFFBF = some (.jsr 0xFFFF) ∧ decodeTableWord 8 0xC1 = some (.unassigned .p0) := by decide

/-- The seven clauses: the first, second and third byte modified; a store the program runs into; the first byte, the
second (absent) and the third (past the wrap) not readable. -/
theorem witness_FetchStopsOnModifiedOrUnwritten :
    (let s := { rig [(0x0100, 0x05)] (r4 0 0 0 0) 0 with stored := [0x0100] };
      s.takenRequest = none ∧ s.modified s.pc = true) ∧
    (let s := { rig [(0xFFFF, 0xE3)] (r4 0 0 0 0) 0 with pc := 0xFFFF, stored := [0] };
      s.takenRequest = none ∧ BytesAt s s.pc [0xE3] ∧ 2 ≤ instrLength 0xE3 ∧ s.modified (s.pc + 1) = true) ∧
    (let s := { rig [(0x0100, 0xBC), (0x0101, 0x34)] (r4 0 0 0 0) 0 with stored := [0x0102] };
      s.takenRequest = none ∧ BytesAt s s.pc [0xBC, 0x34] ∧ instrLength 0xBC = 3 ∧ s.modified (s.pc + 2) = true) ∧
    (let s := rig [] (r4 0 0 0 0) 0;
      s.cfg.extInterrupts = false ∧ ∃ t, exec (.sta .r0 0x0103) s = .next t ∧ t.pc = 0x0103) ∧
    (let s := rig [] (r4 0 0 0 0) 0;
      s.takenRequest = none ∧ s.modified s.pc = false ∧
        readStop s (s.byteAt s.pc) s.pc = some (.fault (.unwrittenByte 0x0100))) ∧
    (let s := { mappedRig 0 with pc := 0x2001, mem := [(0x2001, 0xE3)] };
      s.takenRequest = none ∧ BytesAt s s.pc [0xE3] ∧ 2 ≤ instrLength 0xE3 ∧ s.modified (s.pc + 1) = false ∧
        readStop s (s.byteAt (s.pc + 1)) (s.pc + 1) = some (.refusal (.absentAddress 0x2002))) ∧
    (let s := { rig [(0xFFFE, 0xBC), (0xFFFF, 0x34)] (r4 0 0 0 0) 0 with pc := 0xFFFE };
      s.takenRequest = none ∧ BytesAt s s.pc [0xBC, 0x34] ∧ instrLength 0xBC = 3 ∧ s.modified (s.pc + 2) = false ∧
        readStop s (s.byteAt (s.pc + 2)) (s.pc + 2) = some (.fault (.unwrittenByte 0x0000))) := by
  refine ⟨⟨by decide, by decide⟩, ⟨by decide, ⟨by decide, by decide, by decide, trivial⟩, by decide, by decide⟩,
    ⟨by decide, ⟨by decide, by decide, by decide, by decide, by decide, by decide, trivial⟩, by decide, by decide⟩,
    ⟨by decide, _, rfl, rfl⟩, ⟨by decide, by decide, by decide⟩,
    ⟨by decide, ⟨by decide, by decide, by decide, trivial⟩, by decide, by decide, by decide⟩,
    by decide, ⟨by decide, by decide, by decide, by decide, by decide, by decide, trivial⟩, by decide, by decide,
    by decide⟩

/-- Number 3 is taken although 1 (masked) is requested too; 0 is taken with interrupts off; 3 requested with interrupts
off, and 1 masked, of which none is accepted; no answer left; the option off. -/
theorem witness_LowestAcceptedRequestIsTaken :
    (let s := extRig 0x08 [0x0A, 0x01];
      s.cfg.extInterrupts = true ∧ s.requests = 0x0A :: [0x01] ∧ bitOf 0x0A 3 = true ∧
        (s.flag iBit = true ∧ bitOf s.imr 3 = true) ∧
        (∀ m : BitIndex, m < 3 → bitOf 0x0A m = true → ¬(m = 0 ∨ (s.flag iBit = true ∧ bitOf s.imr m = true))) ∧
        EntryPossible s 3 s.pc 0x34 0x12 0) ∧
    (let s := extRig 0x00 [0x09];
      bitOf 0x09 0 = true ∧ (∀ m : BitIndex, ¬m < 0) ∧ EntryPossible s 0 s.pc 0x00 0x80 0) ∧
    (let s := extRig 0x00 [0x08, 0x01];
      s.cfg.extInterrupts = true ∧ s.requests = 0x08 :: [0x01] ∧
        (∀ m : BitIndex, bitOf 0x08 m = true → ¬(m = 0 ∨ (s.flag iBit = true ∧ bitOf s.imr m = true))) ∧
        fetch { s with requests := [0x01] } = .ok (.inc .r5, { s with requests := [0x01] })) ∧
    (let s := extRig 0x08 [0x02];
      ∀ m : BitIndex, bitOf 0x02 m = true → ¬(m = 0 ∨ (s.flag iBit = true ∧ bitOf s.imr m = true))) ∧
    ((extRig 0x08 []).cfg.extInterrupts = true ∧ (extRig 0x08 []).requests = [] ∧
      fetch (extRig 0x08 []) = .ok (.inc .r5, extRig 0x08 [])) ∧
    (rig [] (r4 0 0 0 0) 0).cfg.extInterrupts = false := by
  refine ⟨⟨by decide, by decide, by decide, by decide, by decide, by decide, by decide, by decide, 0, .inl ?_, .inl ?_⟩,
    ⟨by decide, by decide, by decide, by decide, by decide, 0, .inl ?_, .inl ?_⟩, ⟨by decide, by decide, by decide, rfl⟩,
    by decide, ⟨by decide, by decide, rfl⟩, by decide⟩ <;> decide

theorem witness_ResetLeavesTheStatedValues :
    ([(0x0100, 0x05), (0xFFFF, 0x12)] : List Host.Cell).Pairwise (fun c d => c.1 ≠ d.1) ∧
      ((0xFFFF : Addr).toNat, (0x12 : Byte)) ∈ ([(0x0100, 0x05), (0xFFFF, 0x12)] : List Host.Cell) ∧
      ∀ c ∈ ([(0x0100, 0x05), (0xFFFF, 0x12)] : List Host.Cell), c.1 ≠ (0x0101 : Addr).toNat := by decide

theorem witness_SbcSubtractsAndAddsTheCarry :
    (rig [] (r4 3 5 0 0) 0).cfg.sbcCarry = .added ∧ (rig [] (r4 3 5 0 0) 0).cfg.subNegWidth = .eight ∧
      (let s := { rig [] (r4 3 5 0 0) 0 with cfg := { Config.default with subNegWidth := .nine } };
        s.cfg.sbcCarry = .added ∧ s.cfg.subNegWidth = .nine) := by decide

theorem witness_SbcSubtractingTheCarry :
    ({ rig [] (r4 3 5 0 0) 2 with cfg := { Config.default with sbcCarry := .subtracted } } : State).cfg.sbcCarry =
      .subtracted := by decide

theorem witness_CmpComparesWithoutWriting :
    (rig [] (r4 5 0 0 0) 0).cfg.subNegWidth = .eight ∧
      ({ rig [] (r4 5 0 0 0) 0 with cfg := { Config.default with subNegWidth := .nine } } : State).cfg.subNegWidth =
        .nine := by decide

theorem witness_NineRotationsRestore : Instr.rol .r3 = .rol .r3 ∨ Instr.rol .r3 = .ror .r3 := .inl rfl

/-- Plain memory at the wrap, and a device. -/
theorem witness_PshStoresBelowTheStack :
    Writable { rig [] (r4 1 0 0 0) 0 with sp := 0 } (0 - 1) ∧ Writable (mappedRig 0x2001) (0x2001 - 1) := by
  constructor <;> (unfold Writable; decide)

/-- A byte memory holds, at the wrap, and a device's answer. -/
theorem witness_PopReadsAtTheStack :
    (let s := { rig [(0xFFFF, 0x42)] (r4 0 0 0 0) 0 with sp := 0xFFFF };
      ReadsAs s (s.byteAt s.sp) s.freeCount s.sp 0x42 0) ∧
    (let s := mappedRig 0x2000; ReadsAs s (s.byteAt s.sp) s.freeCount s.sp (Config.freeByte 0) 1) :=
  ⟨.inl (by decide), .inr ⟨by decide, rfl, rfl⟩⟩

theorem witness_RspSetsTheStackPointer :
    (rig [] (r4 0 0 0 0) 0).cfg.allowStackAddressMove = true ∧
      ({ rig [] (r4 0 0 0 0) 0 with cfg := { Config.default with allowStackAddressMove := false } } :
        State).cfg.allowStackAddressMove = false := by decide

theorem witness_PopAfterPushGivesTheByte :
    (let s := { rig [] (r4 7 0 0 0) 0 with sp := 0 }; s.kindAt (s.sp - 1) = .plain) := by decide

theorem witness_JsrPushesTheReturnAddress :
    (let s := { rig [] (r4 0 0 0 0) 0 with sp := 1 }; Writable s (s.sp - 1) ∧ Writable s (s.sp - 2)) := by
  constructor <;> (unfold Writable; decide)

theorem witness_RtsPopsTheProgramCounter :
    (let s := { rig [(0x0000, 0x02), (0xFFFF, 0x03)] (r4 0 0 0 0) 0 with sp := 0xFFFF };
      ReadsAs s (s.byteAt s.sp) s.freeCount s.sp 0x03 0 ∧
        ReadsAs s (s.byteAt (s.sp + 1)) 0 (s.sp + 1) 0x02 0) := by
  constructor <;> exact .inl (by decide)

theorem witness_RtsAfterJsrResumes :
    (let s := { rig [] (r4 0 0 0 0) 0 with sp := 1 };
      s.kindAt (s.sp - 1) = .plain ∧ s.kindAt (s.sp - 2) = .plain) := by decide

/-- INT 3 enabled, and INT 0 with interrupts off. -/
theorem witness_AcceptedIntEntersItsHandler :
    ((intRig.flag iBit = true ∧ bitOf intRig.imr 3 = true) ∧
      EntryPossible intRig 3 (intRig.pc + intRig.cfg.intReturnOffset.setWidth 16) 0x34 0x12 0) ∧
    (let s := extRig 0 [];
      EntryPossible s 0 (s.pc + s.cfg.intReturnOffset.setWidth 16) 0x00 0x80 0) := by
  refine ⟨⟨by decide, by decide, by decide, by decide, 0, .inl ?_, .inl ?_⟩,
    by decide, by decide, by decide, 0, .inl ?_, .inl ?_⟩ <;> decide

/-- Disabled, and masked. -/
theorem witness_RefusedIntDoesNothing :
    (let s := rig [] (r4 0 0 0 0) 0x07; ¬((3 : BitIndex) = 0 ∨ (s.flag iBit = true ∧ bitOf s.imr 3 = true))) ∧
    (let s := rig [] (r4 0 0 0 0) 0x0F; ¬((3 : BitIndex) = 0 ∨ (s.flag iBit = true ∧ bitOf s.imr 3 = true))) := by
  decide

theorem witness_RtiPopsAddressAndPsr :
    (let s := { rig [(0x0000, 0x0F), (0xFFFE, 0x01), (0xFFFF, 0x02)] (r4 0 0 0 0) 0 with sp := 0xFFFE };
      ReadsAs s (s.byteAt s.sp) s.freeCount s.sp 0x01 0 ∧ ReadsAs s (s.byteAt (s.sp + 1)) 0 (s.sp + 1) 0x02 0 ∧
        ReadsAs s (s.byteAt (s.sp + 2)) 0 (s.sp + 2) 0x0F 0) :=
  ⟨.inl (by decide), .inl (by decide), .inl (by decide)⟩

theorem witness_RtiUndoesInt :
    intRig.accepts 3 = true ∧ intRig.kindAt (intRig.sp - 1) = .plain ∧ intRig.kindAt (intRig.sp - 2) = .plain ∧
      intRig.kindAt (intRig.sp - 3) = .plain ∧ EntryPossible intRig 3 intRig.intReturn 0x34 0x12 0 := by
  refine ⟨by decide, by decide, by decide, by decide, by decide, by decide, by decide, 0, .inl ?_, .inl ?_⟩ <;> decide

theorem witness_GmskReadsTheMask : (rig [] (r4 0 0 0 0) 0).Inv := ⟨by decide, by decide, by decide⟩

theorem witness_StaStoresAtItsAddress : Writable (mappedRig 0) 0xFFFF ∧ Writable (mappedRig 0) 0x2000 := by
  constructor <;> (unfold Writable; decide)

/-- Both addresses, the second past the wrap; and the plain form on a core without the option. -/
theorem witness_IndexedStoresWriteR0 :
    (let s := rig [] (r5 0x55 0x80 0xFF 0 0) 0;
      (true = true → s.cfg.autoIncrement = true) ∧ Writable s (s.indexedAddr .p4) ∧
        Writable s (s.offsetAddr .p4 0xFF)) ∧
    (let s := { rig [] (r5 0x55 0x80 0xFF 0 0) 0 with cfg := { Config.default with autoIncrement := false } };
      (false = true → s.cfg.autoIncrement = true) ∧ Writable s (s.indexedAddr .p4)) := by
  refine ⟨⟨by decide, ?_, ?_⟩, by decide, ?_⟩ <;> (unfold Writable; decide)

theorem witness_LdaLoadsFromItsAddress :
    (let s := mappedRig 0;
      ReadsAs s (s.byteAt 0x2001) s.freeCount 0x2001 0x5A 0 ∧
        ReadsAs s (s.byteAt 0x2000) s.freeCount 0x2000 (Config.freeByte 0) 1) :=
  ⟨.inl (by decide), .inr ⟨by decide, rfl, rfl⟩⟩

/-- The pair R1:R0, which the load overwrites, and another pair, the second address past the wrap. -/
theorem witness_IndexedLoadsReadIntoR0 :
    (let s := rig [(0x0210, 0xFF)] (r4 0x10 0x02 0 0) 0;
      (true = true → s.cfg.autoIncrement = true) ∧
        ReadsAs s (s.byteAt (s.indexedAddr .p0)) s.freeCount (s.indexedAddr .p0) 0xFF 0) ∧
    (let s := rig [(0x00FE, 0x21)] (r5 0 0 0 0xFF 0xFF) 0;
      (false = true → s.cfg.autoIncrement = true) ∧ Pair.p6 ≠ .p0 ∧
        ReadsAs s (s.byteAt (s.offsetAddr .p6 0xFF)) s.freeCount (s.offsetAddr .p6 0xFF) 0x21 0) :=
  ⟨⟨by decide, .inl (by decide)⟩, by decide, by decide, .inl (by decide)⟩

theorem witness_AutoIncrementFormsNeedTheOption :
    ({ rig [] (r4 0 0 0 0) 0 with cfg := { Config.default with autoIncrement := false } } : State).cfg.autoIncrement =
      false := by decide

/-- Each clause in turn: an unwritten byte, an absent and a read-only address. -/
theorem witness_SingleAccessStopsItsInstruction :
    (let s := mappedRig 0x2002; readStop s (s.byteAt s.sp) s.sp = some (.refusal (.absentAddress 0x2002))) ∧
    (let s := mappedRig 0; readStop s (s.byteAt 0xFFFF) 0xFFFF = some (.fault (.unwrittenByte 0xFFFF))) ∧
    (let s := mappedRig 0x2002; writeStop s (s.sp - 1) = some (.refusal (.readOnlyAddress 0x2001))) ∧
    (let s := mappedRig 0; writeStop s 0x2002 = some (.refusal (.absentAddress 0x2002))) ∧
    (let s := { mappedRig 0 with regs := r4 0x02 0x20 0 0 };
      (true = true → s.cfg.autoIncrement = true) ∧
      readStop s (s.byteAt (s.indexedAddr .p0)) (s.indexedAddr .p0) = some (.refusal (.absentAddress 0x2002)) ∧
      readStop s (s.byteAt (s.offsetAddr .p0 1)) (s.offsetAddr .p0 1) = some (.fault (.unwrittenByte 0x2003)) ∧
      writeStop s (s.indexedAddr .p0) = some (.refusal (.absentAddress 0x2002)) ∧
      writeStop s (s.offsetAddr .p2 0) = none) ∧
    (let s := { mappedRig 0 with regs := r4 0xFF 0x1F 0 0 };
      writeStop s (s.offsetAddr .p0 2) = some (.refusal (.readOnlyAddress 0x2001))) := by decide

/-- Each clause in turn, the bad access first, second, third, and in the vector. -/
theorem witness_FirstBadAccessStopsTheSequence :
    (let s := mappedRig 0x2003; writeStop s (s.sp - 1) = some (.refusal (.absentAddress 0x2002))) ∧
    (let s := mappedRig 0x2004;
      writeStop s (s.sp - 1) = none ∧ writeStop s (s.sp - 2) = some (.refusal (.absentAddress 0x2002))) ∧
    (let s := mappedRig 0x2002; readStop s (s.byteAt s.sp) s.sp = some (.refusal (.absentAddress 0x2002))) ∧
    (let s := mappedRig 0x2001;
      readStop s (s.byteAt s.sp) s.sp = none ∧
        readStop s (s.byteAt (s.sp + 1)) (s.sp + 1) = some (.refusal (.absentAddress 0x2002))) ∧
    (let s := mappedRig 0x2000;
      readStop s (s.byteAt s.sp) s.sp = none ∧ readStop s (s.byteAt (s.sp + 1)) (s.sp + 1) = none ∧
        readStop s (s.byteAt (s.sp + 2)) (s.sp + 2) = some (.refusal (.absentAddress 0x2002))) ∧
    (let s := mappedRig 0x2003;
      s.accepts 0 = true ∧ entryStop s 0 s.intReturn = some (.refusal (.absentAddress 0x2002))) ∧
    (let s := mappedRig 0x2004;
      writeStop s (s.sp - 1) = none ∧ entryStop s 0 s.intReturn = some (.refusal (.absentAddress 0x2002))) ∧
    (let s := mappedRig 0x2005;
      writeStop s (s.sp - 1) = none ∧ writeStop s (s.sp - 2) = none ∧
        entryStop s 0 s.intReturn = some (.refusal (.absentAddress 0x2002))) ∧
    (let s := mappedRig 0x80;
      s.accepts 0 = true ∧ entryStop s 0 s.intReturn = some (.fault (.unwrittenByte 0xFFF0))) ∧
    (let s := rig [(0xFFF0, 0x00)] (r4 0 0 0 0) 0;
      s.accepts 0 = true ∧ entryStop s 0 s.intReturn = some (.fault (.unwrittenByte 0xFFF1))) ∧
    (let s := { extRig 0x08 [0x08] with mem := [(0xFFF6, 0x34)] };
      s.takenRequest = some 3 ∧ entryStop s 3 s.pc = some (.fault (.unwrittenByte 0xFFF7))) ∧
    (let s := { extRig 0x00 [0x01] with cfg := { mapped with extInterrupts := true }, sp := 0x2003 };
      s.takenRequest = some 0 ∧ entryStop s 0 s.pc = some (.refusal (.absentAddress 0x2002))) := by
  refine ⟨?_, ?_, ?_, ?_, ?_, ?_, ?_, ?_, ?_, ?_, ?_, ?_⟩ <;> decide

theorem witness_AliasActsAsItsInstruction : expansion .sti = [.stp 3] ∧ expansion (.brz 5) = [.br1 0 5] := ⟨rfl, rfl⟩

theorem witness_ConditionalPseudoMnemonics :
    conditionalBranch (.brlz 0x80) = some (2, true, 0x80) ∧ conditionalJump (.jmpnc 0xFFFF) = some (1, false, 0xFFFF) :=
  ⟨rfl, rfl⟩

/-- JMPZ at 0x0100 (95_test_vectors.md section 1), not made and made. -/
theorem witness_ConditionalJumpIsItsTwoSteps :
    conditionalJump (.jmpz 0x0120) = some (0, true, 0x0120) ∧
    ∀ p ∈ ([0x00, 0x01] : List Byte),
      let s := rig [(0x0100, 0x90), (0x0101, 0x05), (0x0102, 0xBC), (0x0103, 0x20), (0x0104, 0x01)] (r4 0 0 0 0) p;
      s.cfg.extInterrupts = false ∧ BytesAt s s.pc (encode (.jmpz 0x0120)) ∧ s.flag 0 = decide (p = 1) := by
  refine ⟨rfl, fun p hp => ?_⟩
  rcases List.mem_cons.1 hp with rfl | hp
  · exact ⟨by decide, ⟨by decide, by decide, by decide, by decide, by decide, by decide, by decide, by decide, by decide,
      by decide, by decide, by decide, by decide, by decide, by decide, trivial⟩, by decide⟩
  · rcases List.mem_cons.1 hp with rfl | hp
    · exact ⟨by decide, ⟨by decide, by decide, by decide, by decide, by decide, by decide, by decide, by decide, by decide,
        by decide, by decide, by decide, by decide, by decide, by decide, trivial⟩, by decide⟩
    · cases hp

theorem witness_EveryStepKeepsTheInvariant :
    (extRig 0x08 [0x08]).Inv ∧ ∃ t, step (extRig 0x08 [0x08]) = .next t :=
  ⟨⟨by decide, by decide, by decide⟩, _, rfl⟩

theorem witness_OnlyTheTableWritesFlags :
    (∃ t, exec (.stp 7) (rig [] (r4 0 0 0 0) 0) = .next t ∧ 4 ≤ (7 : BitIndex).val ∧
      t.flag 7 ≠ (rig [] (r4 0 0 0 0) 0).flag 7) := ⟨_, rfl, by decide, by decide⟩

theorem witness_OnlyNamedInstructionsWriteState :
    (∃ t, exec (.psh .r0) (rig [] (r4 0 0 0 0) 0) = .next t ∧ t.sp ≠ (rig [] (r4 0 0 0 0) 0).sp) ∧
    (∃ t, exec .smsk (rig [] (r4 0xF0 0 0 0) 0) = .next t ∧ t.imr ≠ (rig [] (r4 0xF0 0 0 0) 0).imr) :=
  ⟨⟨_, rfl, by decide⟩, _, rfl, by decide⟩

theorem witness_MaskChangesOnlyBySmsk :
    ∃ t, step (rig [(0x0100, 0xBD)] (r4 0xF0 0 0 0) 0) = .next t ∧
      t.imr ≠ (rig [(0x0100, 0xBD)] (r4 0xF0 0 0 0) 0).imr := ⟨_, rfl, by decide⟩

end Sys2Proof.Tests
end

section
/-! PROOFS. What one instruction, and then one step, can change of the state (10_state.md). -/

namespace Sys2Proof.Machine

/-! ## Staying within a footprint

A meaning is a chain of updates and memory accesses. `Within w s t` says that `t` came from `s` by writing only what `w`
lists. Every update and every access has one rule that adds it to such a chain, so an instruction is checked against its
row by following its own definition. -/

/-- The parts of the state that may be written. -/
structure Footprint where
  regs  : List Reg
  flags : List BitIndex
  addrs : List Addr
  stack : Bool
  mask  : Bool

/-- What an instruction executed in `s` may write: its rows in the tables of R20, R25, R26, R31 and R50. -/
@[simp] def footprint (s : State) (i : Instr) : Footprint :=
  ⟨regsWritten i, flagsWritten i, addrsWritten s i, writesStackPointer i, decide (i = .smsk)⟩

/-- Memory and the set of stored addresses are in canonical form (log entries 5 and 6). -/
def State.Canonical (s : State) : Prop := Memory.wf s.mem = true ∧ AddressSet.wf s.stored = true

/-- From `s` to `t` nothing outside the footprint is written, and the canonical forms are kept. -/
structure Within (w : Footprint) (s t : State) : Prop where
  regs : KeepsRegs w.regs s t
  flags : KeepsFlags w.flags s t
  memory : KeepsMemory w.addrs s t
  inputs : KeepsInputs s t
  stack : w.stack = false → t.sp = s.sp
  mask : w.mask = false → t.imr = s.imr
  canonical : s.Canonical → t.Canonical

namespace Within

variable {w : Footprint} {s t u : State}

theorem refl : Within w s s :=
  ⟨fun _ _ => rfl, fun _ _ => rfl, fun _ _ => ⟨rfl, rfl⟩, ⟨rfl, rfl⟩, fun _ => rfl, fun _ => rfl, id⟩

/-! ### Updates -/

theorem setReg {n : Reg} {v : Byte} (h : Within w s t) (hn : n ∈ w.regs := by simp [regsWritten]) :
    Within w s (t.setReg n v) :=
  { h with
    regs := fun m hm => by
      have hne : m ≠ n := fun e => hm (e ▸ hn)
      rw [State.reg_setReg, if_neg hne]
      exact h.regs m hm }

theorem setPc {v : Addr} (h : Within w s t) : Within w s (t.setPc v) := { h with }

theorem advance {k : Addr} (h : Within w s t) : Within w s (t.advance k) := h.setPc

theorem setSp {v : Addr} (h : Within w s t) (hw : w.stack = true := by rfl) : Within w s (t.setSp v) :=
  { h with stack := fun hf => by simp [hw] at hf }

theorem setImr {v : Byte} (h : Within w s t) (hw : w.mask = true := by rfl) : Within w s (t.setImr v) :=
  { h with mask := fun hf => by simp [hw] at hf }

theorem setFlag {n : BitIndex} {b : Bool} (h : Within w s t) (hn : n ∈ w.flags := by simp [flagsWritten]) :
    Within w s (t.setFlag n b) :=
  { h with
    flags := fun m hm => by
      have hne : m ≠ n := fun e => hm (e ▸ hn)
      rw [State.flag_setFlag, if_neg hne]
      exact h.flags m hm }

theorem setPsr {v : Byte} (h : Within w s t) (hall : ∀ n, n ∈ w.flags) : Within w s (t.setPsr v) :=
  { h with flags := fun m hm => absurd (hall m) hm }

theorem setNZ {v : Byte} (h : Within w s t) (hN : nBit ∈ w.flags := by simp [flagsWritten])
    (hZ : zBit ∈ w.flags := by simp [flagsWritten]) : Within w s (t.setNZ v) :=
  (h.setFlag hN).setFlag hZ

theorem setNCZ {v : BitVec 9} (h : Within w s t) (hN : nBit ∈ w.flags := by simp [flagsWritten])
    (hC : cBit ∈ w.flags := by simp [flagsWritten]) (hZ : zBit ∈ w.flags := by simp [flagsWritten]) :
    Within w s (t.setNCZ v) :=
  ((h.setFlag hN).setFlag hC).setFlag hZ

theorem setPair {e : Pair} {v : Addr} (h : Within w s t) (hlo : evenReg e ∈ w.regs := by simp [regsWritten, evenReg])
    (hhi : oddReg e ∈ w.regs := by simp [regsWritten, oddReg]) : Within w s (t.setPair e v) :=
  (h.setReg hlo).setReg hhi

theorem bumpPair {e : Pair} {a : Bool} (h : Within w s t) (hlo : evenReg e ∈ w.regs := by simp [regsWritten])
    (hhi : oddReg e ∈ w.regs := by simp [regsWritten]) : Within w s (t.bumpPair e a) :=
  h.setPair hlo hhi

theorem storeSum {n : Reg} {v : BitVec 9} (h : Within w s t) (hn : n ∈ w.regs := by simp [regsWritten])
    (hN : nBit ∈ w.flags := by simp [flagsWritten]) (hC : cBit ∈ w.flags := by simp [flagsWritten])
    (hZ : zBit ∈ w.flags := by simp [flagsWritten]) : Within w s (storeSum n v t) :=
  ((h.setReg hn).setNCZ hN hC hZ).advance

theorem storeByte {n : Reg} {v : Byte} (h : Within w s t) (hn : n ∈ w.regs := by simp [regsWritten])
    (hN : nBit ∈ w.flags := by simp [flagsWritten]) (hZ : zBit ∈ w.flags := by simp [flagsWritten]) :
    Within w s (storeByte n v t) :=
  ((h.setReg hn).setNZ hN hZ).advance

theorem branchIf {taken : Bool} {o : Byte} (h : Within w s t) : Within w s (branchIf taken o t) := by
  cases taken
  · exact h.advance
  · exact h.setPc

theorem jumpIf {taken : Bool} {a : Addr} (h : Within w s t) : Within w s (jumpIf taken a t) := by
  cases taken
  · exact h.advance
  · exact h.setPc

/-! ### Memory accesses -/

theorem readByte {a : Addr} {v : Byte} (h : Within w s t) (hr : readByte a t = .ok (v, u)) : Within w s u := by
  rw [readByte_frame hr]
  exact { h with }

theorem readWord {a v : Addr} (h : Within w s t) (hr : readWord a t = .ok (v, u)) : Within w s u := by
  rw [readWord_frame hr]
  exact { h with }

theorem writeByte {a : Addr} {v : Byte} (h : Within w s t) (hw : writeByte a v t = .ok u)
    (ha : a ∈ w.addrs := by simp [addrsWritten]) : Within w s u := by
  have memory : KeepsMemory w.addrs s u := fun b hb => by
    have hne : b ≠ a := fun e => hb (e ▸ ha)
    rw [writeByte_byteAt hw, writeByte_modified hw]
    simpa [hne] using h.memory b hb
  have canonical : s.Canonical → u.Canonical := fun hs =>
    writeByte_wf hw (h.canonical hs).1 (h.canonical hs).2
  rw [writeByte_frame hw] at memory canonical ⊢
  exact { h with memory, canonical }

theorem push {v : Byte} (h : Within w s t) (hp : push v t = .ok u) (hw : w.stack = true := by rfl)
    (ha : t.sp - 1 ∈ w.addrs := by simp [addrsWritten]) : Within w s u :=
  (h.setSp hw).writeByte (push_eq_ok.1 hp) ha

theorem pushWord {v : Addr} (h : Within w s t) (hp : pushWord v t = .ok u) (hw : w.stack = true := by rfl)
    (hhi : t.sp - 1 ∈ w.addrs := by simp [addrsWritten]) (hlo : t.sp - 2 ∈ w.addrs := by simp [addrsWritten]) :
    Within w s u := by
  obtain ⟨t1, h1, h2⟩ := pushWord_eq_ok.1 hp
  have hsp : t1.sp - 1 = t.sp - 2 := by rw [push_frame h1]; show t.sp - 1 - 1 = t.sp - 2; bv_omega
  exact (h.push h1 hw hhi).push h2 hw (hsp ▸ hlo)

end Within

/-! ## What the meanings with memory accesses do -/

theorem execPsh_eq_next {n : Reg} {s t : State} :
    execPsh n s = .next t ↔ ∃ s1, push (s.reg n) s = .ok s1 ∧ s1.advance 1 = t := by
  simp only [execPsh, finish_eq_next, bind_eq_ok, pure_eq_ok]

theorem execPop_eq_next {n : Reg} {s t : State} :
    execPop n s = .next t ↔
      ∃ v s1, readByte s.sp s = .ok (v, s1) ∧ ((s1.setReg n v).setSp (s.sp + 1)).advance 1 = t := by
  simp only [execPop, finish_eq_next, bind_eq_ok, pure_eq_ok, Prod.exists]

theorem execJsr_eq_next {addr : Addr} {s t : State} :
    execJsr addr s = .next t ↔ ∃ s1, pushWord (s.pc + 3) s = .ok s1 ∧ s1.setPc addr = t := by
  simp only [execJsr, finish_eq_next, bind_eq_ok, pure_eq_ok]

theorem execRts_eq_next {s t : State} :
    execRts s = .next t ↔
      ∃ target s1, readWord s.sp s = .ok (target, s1) ∧ (s1.setSp (s.sp + 2)).setPc target = t := by
  simp only [execRts, finish_eq_next, bind_eq_ok, pure_eq_ok, Prod.exists]

theorem execSta_eq_next {n : Reg} {addr : Addr} {s t : State} :
    execSta n addr s = .next t ↔ ∃ s1, writeByte addr (s.reg n) s = .ok s1 ∧ s1.advance 3 = t := by
  simp only [execSta, finish_eq_next, bind_eq_ok, pure_eq_ok]

theorem execLda_eq_next {n : Reg} {addr : Addr} {s t : State} :
    execLda n addr s = .next t ↔
      ∃ v s1, readByte addr s = .ok (v, s1) ∧ ((s1.setReg n v).setNZ v).advance 3 = t := by
  simp only [execLda, finish_eq_next, bind_eq_ok, pure_eq_ok, Prod.exists]

/-- An INT is its entry sequence, or moves on by one byte. -/
theorem execInt_eq_next {n : BitIndex} {s t : State} :
    execInt n s = .next t ↔
      (s.accepts n = true ∧ takeInterrupt n s.intReturn s = .ok t) ∨ (s.accepts n = false ∧ t = s.advance 1) := by
  unfold execInt
  cases s.accepts n
  · simp [eq_comm]
  · simp [finish_eq_next]

/-! ## What an instruction can change -/

/-- An interrupt entry, by INT or by an external request, writes what INT may write (R253). -/
theorem takeInterrupt_within {n : BitIndex} {ret : Addr} {s t : State} (h : takeInterrupt n ret s = .ok t) :
    Within (footprint s (.int n)) s t := by
  obtain ⟨s1, s2, s3, handler, hpsr, hret, hvec, rfl⟩ := takeInterrupt_eq_ok.1 h
  have hsp : s1.sp = s.sp - 1 := by rw [push_frame hpsr]
  have hhi : s1.sp - 1 = s.sp - 2 := by rw [hsp]; bv_omega
  have hlo : s1.sp - 2 = s.sp - 3 := by rw [hsp]; bv_omega
  have saved : Within (footprint s (.int n)) s s1 := Within.refl.push hpsr
  have pushed : Within (footprint s (.int n)) s s2 :=
    saved.setFlag.pushWord hret rfl (by simp only [State.setFlag_sp, hhi]; simp [addrsWritten])
      (by simp only [State.setFlag_sp, hlo]; simp [addrsWritten])
  exact (pushed.readWord hvec).setPc

/-- A return from interrupt writes what RTI may write (R255). -/
theorem returnFromInterrupt_within {s t : State} (h : returnFromInterrupt s = .ok t) :
    Within (footprint s .rti) s t := by
  obtain ⟨target, p, s1, s2, haddr, hpsr, rfl⟩ := returnFromInterrupt_eq_ok.1 h
  have every_flag : ∀ n : BitIndex, n ∈ flagsWritten .rti := by decide
  exact (((Within.refl.readWord haddr).readByte hpsr).setSp.setPsr every_flag).setPc

/-- Whatever instruction completes, it stays within its rows of the tables. -/
theorem exec_within {i : Instr} {s t : State} (h : exec i s = .next t) : Within (footprint s i) s t := by
  cases i with
  | inc _ | adc _ | dec _ | add _ =>
    cases h
    exact Within.refl.storeSum
  | sbc n =>
    change execSbc n s = .next t at h
    unfold execSbc at h
    split at h <;> cases h
    · exact Within.refl.storeSum
    · exact Within.refl.setReg.setFlag.setNZ.advance
  | tx0 _ | t0x _ | or _ | and _ | xor _ | clr =>
    cases h
    exact Within.refl.storeByte
  | rol _ | ror _ =>
    cases h
    exact Within.refl.setFlag.storeByte
  | cmp _ =>
    cases h
    exact Within.refl.setNCZ.advance
  | stp _ | clp _ | sti | cli | stz | clz | stn | cln | stc | clc =>
    cases h
    exact (Within.refl.setFlag (List.mem_singleton_self _)).advance
  | btt _ =>
    cases h
    exact Within.refl.setFlag.setFlag.advance
  | mul _ | upp _ =>
    cases h
    exact Within.refl.setPair.setFlag.advance
  | br0 _ _ | br1 _ _ | brz _ | brnz _ | brlz _ | brgez _ | brc _ | brnc _ =>
    cases h
    exact Within.refl.branchIf
  | dbnz _ _ =>
    cases h
    exact Within.refl.setReg.setNCZ.branchIf
  | jmpz _ | jmpnz _ | jmplz _ | jmpgez _ | jmpc _ | jmpnc _ =>
    cases h
    exact Within.refl.jumpIf
  | jmp _ =>
    cases h
    exact Within.refl.setPc
  | brk | nop =>
    cases h
    exact Within.refl.advance
  | smsk =>
    cases h
    exact Within.refl.setImr.advance
  | gmsk =>
    cases h
    exact Within.refl.setReg.setFlag.setFlag.advance
  | rsp =>
    cases h
    exact Within.refl.setSp.advance
  | ldi _ _ =>
    cases h
    exact Within.refl.setReg.setNZ.advance
  | unassigned _ => cases h
  | psh _ =>
    obtain ⟨s1, hpush, rfl⟩ := execPsh_eq_next.1 h
    exact (Within.refl.push hpush).advance
  | pop _ =>
    obtain ⟨v, s1, hread, rfl⟩ := execPop_eq_next.1 h
    exact (Within.refl.readByte hread).setReg.setSp.advance
  | jsr _ =>
    obtain ⟨s1, hpush, rfl⟩ := execJsr_eq_next.1 h
    exact (Within.refl.pushWord hpush).setPc
  | rts =>
    obtain ⟨target, s1, hread, rfl⟩ := execRts_eq_next.1 h
    exact (Within.refl.readWord hread).setSp.setPc
  | int _ =>
    obtain ⟨_, hentry⟩ | ⟨_, rfl⟩ := execInt_eq_next.1 h
    · exact takeInterrupt_within hentry
    · exact Within.refl.advance
  | rti => exact returnFromInterrupt_within (finish_eq_next.1 h)
  | sta _ _ =>
    obtain ⟨s1, hwrite, rfl⟩ := execSta_eq_next.1 h
    exact (Within.refl.writeByte hwrite).advance
  | stx _ _ | sto _ _ _ =>
    obtain ⟨_, s1, hwrite, rfl⟩ := storeIndexed_eq_ok.1 (finish_eq_next.1 h)
    exact (Within.refl.writeByte hwrite).bumpPair.advance
  | lda _ _ =>
    obtain ⟨v, s1, hread, rfl⟩ := execLda_eq_next.1 h
    exact (Within.refl.readByte hread).setReg.setNZ.advance
  | ldx _ _ | ldo _ _ _ =>
    obtain ⟨_, v, s1, hread, rfl⟩ := loadIndexed_eq_ok.1 (finish_eq_next.1 h)
    exact (Within.refl.readByte hread).setReg.setNZ.bumpPair.advance

/-- SMSK writes R0 with bit 0 set to the mask register (R169). -/
theorem exec_smsk_imr {s t : State} (h : exec .smsk s = .next t) : t.imr = s.reg .r0 ||| 1 := by
  cases h
  rfl

/-- The mask register changes only by SMSK. -/
theorem exec_imr_eq_or_smsk {i : Instr} {s t : State} (h : exec i s = .next t) : t.imr = s.imr ∨ i = .smsk := by
  by_cases hi : i = .smsk
  · exact .inr hi
  · exact .inl ((exec_within h).mask (by simp [hi]))

/-- The bits GP1 to GP4 stand in the rows of STP, CLP and RTI only. -/
theorem mem_flagsWritten_of_gp {i : Instr} {g : BitIndex} (hg : 4 ≤ g.val) (h : g ∈ flagsWritten i) :
    i = .stp g ∨ i = .clp g ∨ i = .rti := by
  have hz : g ≠ zBit := by rintro rfl; exact absurd hg (by decide)
  have hc : g ≠ cBit := by rintro rfl; exact absurd hg (by decide)
  have hn : g ≠ nBit := by rintro rfl; exact absurd hg (by decide)
  have hi : g ≠ iBit := by rintro rfl; exact absurd hg (by decide)
  cases i with
  | stp m => exact .inl (congrArg _ (List.mem_singleton.1 h).symm)
  | clp m => exact .inr (.inl (congrArg _ (List.mem_singleton.1 h).symm))
  | rti => exact .inr (.inr rfl)
  | _ => simp [flagsWritten, hz, hc, hn, hi] at h

/-! ## The invariant -/

/-- Bit 0 of a mask register that was written is 1 (R26). -/
theorem bitOf_or_one_zero (v : Byte) : bitOf (v ||| 1) 0 = true := by
  simp [bitOf]

theorem State.inv_iff {s : State} : s.Inv ↔ s.Canonical ∧ bitOf s.imr 0 = true := and_assoc.symm

/-- The invariant is about memory, the set of stored addresses and the mask register alone. -/
theorem inv_congr {s t : State} (hmem : t.mem = s.mem) (hstored : t.stored = s.stored) (himr : t.imr = s.imr) :
    t.Inv ↔ s.Inv := by
  simp only [State.Inv, hmem, hstored, himr]

theorem pollRequests_inv {s : State} : s.pollRequests.Inv ↔ s.Inv := by
  rw [pollRequests_frame s]
  exact inv_congr rfl rfl rfl

theorem fetch_inv {s t : State} {i : Instr} (h : fetch s = .ok (i, t)) : t.Inv ↔ s.Inv := by
  rw [fetch_frame h]
  exact inv_congr rfl rfl rfl

theorem takeInterrupt_inv {n : BitIndex} {ret : Addr} {s t : State} (h : takeInterrupt n ret s = .ok t) (hs : s.Inv) :
    t.Inv := by
  obtain ⟨hcanon, hbit⟩ := State.inv_iff.1 hs
  have w := takeInterrupt_within h
  have himr : t.imr = s.imr := w.mask rfl
  exact State.inv_iff.2 ⟨w.canonical hcanon, himr ▸ hbit⟩

theorem exec_inv {i : Instr} {s t : State} (h : exec i s = .next t) (hs : s.Inv) : t.Inv := by
  obtain ⟨hcanon, hbit⟩ := State.inv_iff.1 hs
  refine State.inv_iff.2 ⟨(exec_within h).canonical hcanon, ?_⟩
  obtain himr | rfl := exec_imr_eq_or_smsk h
  · rw [himr]
    exact hbit
  · rw [exec_smsk_imr h]
    exact bitOf_or_one_zero _

theorem resetWith_inv (cfg : Config) (image : List Host.Cell) (regs : Regs) (psr : Byte) (requests : List Byte) :
    (State.resetWith cfg image regs psr requests).Inv :=
  ⟨Memory.wf_ofImage image, rfl, bitOf_or_one_zero cfg.resetImr⟩

/-! ## The step -/

/-- Where the fetch answers, it leaves all but the oracle's answer and the count of free values as before the step. -/
theorem fetch_pollRequests_frame {s s1 : State} {i : Instr} (h : fetch s.pollRequests = .ok (i, s1)) :
    s1 = { s with requests := s.pollRequests.requests, freeCount := s1.freeCount } := by
  have hfetch := fetch_frame h
  rw [pollRequests_frame s] at hfetch
  exact hfetch

theorem step_of_fetch {s s1 : State} {i : Instr} (hr : s.takenRequest = none)
    (h : fetch s.pollRequests = .ok (i, s1)) : step s = exec i s1 := by
  simp only [step, hr, h]

/-! ## The instruction in memory -/

theorem readByte_of_held {a : Addr} {v : Byte} {s : State} (hk : holdsBytes (s.kindAt a) = true)
    (hb : s.byteAt a = some v) : readByte a s = .ok (v, s) :=
  readByte_eq_ok.2 (.inl ⟨hk, hb, rfl⟩)

theorem fetchByte_of_held {a : Addr} {v : Byte} {s : State} (hk : holdsBytes (s.kindAt a) = true)
    (hb : s.byteAt a = some v) (hm : s.modified a = false) : fetchByte a s = .ok (v, s) :=
  fetchByte_eq_ok.2 ⟨hm, readByte_of_held hk hb⟩

/-- The first byte of a list that lies in memory is fetched, and the rest lies from the next address on. -/
theorem BytesAt.fetchByte_head {s : State} {a : Addr} {v : Byte} {rest : List Byte} (h : BytesAt s a (v :: rest)) :
    fetchByte a s = .ok (v, s) ∧ BytesAt s (a + 1) rest := by
  obtain ⟨hk, hb, hm, hrest⟩ := h
  exact ⟨fetchByte_of_held hk hb hm, hrest⟩

/-- The oracle of requests has no part in what lies in memory. -/
theorem bytesAt_requests {s : State} {r : List Byte} {a : Addr} {bytes : List Byte} :
    BytesAt { s with requests := r } a bytes ↔ BytesAt s a bytes := by
  induction bytes generalizing a with
  | nil => exact Iff.rfl
  | cons v rest ih =>
    simp only [BytesAt, ih]
    exact Iff.rfl

theorem bytesAt_pollRequests {s : State} {a : Addr} {bytes : List Byte} :
    BytesAt s.pollRequests a bytes ↔ BytesAt s a bytes := by
  rw [pollRequests_frame s]
  exact bytesAt_requests

@[simp] theorem pollRequests_pc (s : State) : s.pollRequests.pc = s.pc := by
  rw [pollRequests_frame s]

/-- The fetch reads from memory what the decoder reads from the list of the bytes there. -/
theorem fetch_of_bytesAt {s : State} {bytes rest : List Byte} {i : Instr} (h : BytesAt s s.pc bytes)
    (hd : decode bytes = .ok (i, rest)) : fetch s = .ok (i, s) := by
  unfold decode at hd
  split at hd
  · cases hd
  · obtain ⟨hf0, htail0⟩ := h.fetchByte_head
    split at hd
    case h_1 hlen =>
      cases hd
      simp only [fetch, hf0, hlen, ok_bind, pure_eq_ok]
    case h_2 hlen =>
      cases hd
      obtain ⟨hf1, _⟩ := htail0.fetchByte_head
      simp only [fetch, hf0, hlen, hf1, ok_bind, pure_eq_ok]
    case h_3 hlen =>
      cases hd
      obtain ⟨hf1, htail1⟩ := htail0.fetchByte_head
      have htwo : s.pc + 1 + 1 = s.pc + 2 := by bv_omega
      obtain ⟨hf2, _⟩ := (htwo ▸ htail1).fetchByte_head
      simp only [fetch, hf0, hlen, hf1, hf2, ok_bind, pure_eq_ok]
    case h_4 => cases hd

theorem decode_of_length_one {b0 : Byte} (rest : List Byte) (h : instrLength b0 = 1) :
    decode (b0 :: rest) = .ok (decodeBytes b0 0 0, rest) := by
  simp only [decode, h]

theorem decode_of_length_two {b0 : Byte} (b1 : Byte) (rest : List Byte) (h : instrLength b0 = 2) :
    decode (b0 :: b1 :: rest) = .ok (decodeBytes b0 b1 0, rest) := by
  simp only [decode, h]

theorem decode_of_length_three {b0 : Byte} (b1 b2 : Byte) (rest : List Byte) (h : instrLength b0 = 3) :
    decode (b0 :: b1 :: b2 :: rest) = .ok (decodeBytes b0 b1 b2, rest) := by
  simp only [decode, h]

/-- A hardware instruction is read back from its bytes, whatever bytes follow: by its length, then by its opcode (R87,
R88, R89). -/
theorem decode_encode_append {i : Instr} (h : i.wellFormed = true) (rest : List Byte) :
    decode (encode i ++ rest) = .ok (i, rest) := by
  cases i with
  | br0 _ _ | br1 _ _ | dbnz _ _ | sto _ _ _ | ldi _ _ | ldo _ _ _ =>
    exact (decode_of_length_two _ _ (by simp [instrLength])).trans (by simp [decodeBytes])
  | jmp _ | jsr _ =>
    exact (decode_of_length_three _ _ _ (by simp [instrLength])).trans (by simp [decodeBytes, decodeSelect])
  | sta _ _ | lda _ _ =>
    exact (decode_of_length_three _ _ _ (by simp [instrLength])).trans (by simp [decodeBytes])
  | rsp | rts | rti | brk | smsk | gmsk =>
    exact (decode_of_length_one _ (by simp [instrLength])).trans (by simp [decodeBytes, decodeSelect])
  | inc _ | adc _ | tx0 _ | or _ | and _ | xor _ | rol _ | ror _ | dec _ | sbc _ | add _ | stp _ | btt _ | clp _
  | t0x _ | cmp _ | psh _ | pop _ | int _ | mul _ | upp _ | stx _ _ | ldx _ _ =>
    exact (decode_of_length_one _ (by simp [instrLength])).trans (by simp [decodeBytes])
  | _ => exact absurd h (by simp [Instr.wellFormed, Instr.isAlias, Instr.isUnassigned])

/-! ## The obligations -/

/-- Settles O57: a step is an interrupt entry or an instruction, and either stays within a footprint that keeps the
invariant. -/
theorem everyStepKeepsTheInvariant : Obligations.EveryStepKeepsTheInvariant := by
  intro s t hs hstep
  have hpoll : s.pollRequests.Inv := pollRequests_inv.2 hs
  obtain ⟨n, _, hentry⟩ | ⟨_, i, s1, hfetch, hexec⟩ := step_eq_next.1 hstep
  · exact takeInterrupt_inv hentry hpoll
  · exact exec_inv hexec ((fetch_inv hfetch).2 hpoll)

/-- Settles O9: the bytes in memory are fetched and decode to the instruction they encode. -/
theorem stepRunsTheInstructionInMemory : Obligations.StepRunsTheInstructionInMemory := by
  intro s i hwf hr hbytes
  have hdecode : decode (encode i) = .ok (i, []) := by simpa using decode_encode_append hwf []
  have hbytes' : BytesAt s.pollRequests s.pollRequests.pc (encode i) := by
    rw [pollRequests_pc]
    exact bytesAt_pollRequests.2 hbytes
  exact step_of_fetch hr (fetch_of_bytesAt hbytes' hdecode)

/-- Settles O58: an instruction stays within its row of the flag table, and GP1 to GP4 stand in three rows only. -/
theorem onlyTheTableWritesFlags : Obligations.OnlyTheTableWritesFlags := by
  refine ⟨fun i s t h => (exec_within h).flags, fun i s t g h hg hne => mem_flagsWritten_of_gp hg ?_⟩
  by_contra hmem
  exact hne ((exec_within h).flags g hmem)

/-- Settles O59: an instruction stays within its footprint. -/
theorem onlyNamedInstructionsWriteState : Obligations.OnlyNamedInstructionsWriteState := by
  intro i s t h
  have w := exec_within h
  refine ⟨w.regs, w.memory, w.inputs, fun hsp => ?_, fun himr => (exec_imr_eq_or_smsk h).resolve_left himr⟩
  by_contra hstack
  exact hsp (w.stack (Bool.eq_false_iff.2 hstack))

/-- Settles O60: an interrupt entry keeps the mask register, and so does every instruction but SMSK. -/
theorem maskChangesOnlyBySmsk : Obligations.MaskChangesOnlyBySmsk := by
  intro s t hstep
  obtain ⟨n, _, hentry⟩ | ⟨hr, i, s1, hfetch, hexec⟩ := step_eq_next.1 hstep
  · have w := takeInterrupt_within hentry
    have hcfg : t.cfg = s.cfg := by rw [w.inputs.1, pollRequests_frame s]
    have himr : t.imr = s.imr := by rw [w.mask rfl, pollRequests_frame s]
    exact ⟨hcfg, fun hne => absurd himr hne⟩
  · have hs1 := fetch_pollRequests_frame hfetch
    have hcfg : t.cfg = s.cfg := by rw [(exec_within hexec).inputs.1, hs1]
    refine ⟨hcfg, fun hne => ?_⟩
    obtain himr | rfl := exec_imr_eq_or_smsk hexec
    · exact absurd (by rw [himr, hs1]) hne
    · have hr0 : s1.reg .r0 = s.reg .r0 := State.reg_of_regs (by rw [hs1]) .r0
      exact ⟨s1, hr, hfetch, by rw [exec_smsk_imr hexec, hr0]⟩

/-- Settles O8: the step is what its definition runs, and the fetch writes no architectural state. -/
theorem stepRunsTheDecodedInstruction : Obligations.StepRunsTheDecodedInstruction :=
  fun _ _ _ hr hfetch => ⟨step_of_fetch hr hfetch, fetch_pollRequests_frame hfetch⟩

/-- Settles O14: reset loads a canonical image, marks no address and sets bit 0 of the mask register. -/
theorem invariantAtReset : Obligations.InvariantAtReset :=
  ⟨resetWith_inv Config.default [] Regs.zero 0 [], resetWith_inv⟩

end Sys2Proof.Machine
end

section
/-! PROOFS. Where memory accesses stop, and what the fetch finds in memory (20_memory.md). -/

namespace Sys2Proof.Machine

/-! ## Where a chain of accesses stops

`stopOf` reads the stop off an operation. Each shared operation has one equation for it, in the terms of `readStop` and
`writeStop` on the state before the operation, and a chain stops at the first of its parts that does. -/

/-- Why an operation stopped, if it did. -/
def stopOf {α : Type} (x : Except Halt α) : Option Halt :=
  match x with
  | .ok _ => none
  | .error h => some h

theorem stopOf_eq_some {α : Type} {x : Except Halt α} {h : Halt} : stopOf x = some h ↔ x = .error h := by
  cases x <;> simp [stopOf]

/-- A chain stops where its first operation does, else where the rest does. -/
theorem stopOf_bind {α β : Type} {x : Except Halt α} {f : α → Except Halt β} {o : Option Halt}
    (hf : ∀ a, x = .ok a → stopOf (f a) = o) : stopOf (x >>= f) = (stopOf x).or o := by
  cases x with
  | ok a => exact hf a rfl
  | error h => rfl

/-- What is computed from an access after it adds no stop. -/
theorem stopOf_bind_of_answers {α β : Type} {x : Except Halt α} {f : α → Except Halt β}
    (hf : ∀ a, stopOf (f a) = none) : stopOf (x >>= f) = stopOf x :=
  (stopOf_bind fun a _ => hf a).trans Option.or_none

/-- An instruction stops as its chain of operations does. -/
theorem finish_of_stopOf {r : Except Halt State} {h : Halt} (hr : stopOf r = some h) : finish r = stopped h :=
  congrArg finish (stopOf_eq_some.1 hr)

/-- An instruction stops as its first access does. -/
theorem finish_bind_of_stopOf {α : Type} {x : Except Halt α} {f : α → Except Halt State} {h : Halt}
    (hx : stopOf x = some h) : finish (x >>= f) = stopped h := by
  rw [stopOf_eq_some.1 hx]
  rfl

/-! ### The stop of an access is about the parameters and the byte held -/

theorem State.kindAt_congr {s t : State} (hcfg : t.cfg = s.cfg) (a : Addr) : t.kindAt a = s.kindAt a := by
  simp only [State.kindAt, hcfg]

theorem readStop_congr {s t : State} (hcfg : t.cfg = s.cfg) (held : Option Byte) (a : Addr) :
    readStop t held a = readStop s held a := by
  simp only [readStop, State.kindAt_congr hcfg]

theorem writeStop_congr {s t : State} (hcfg : t.cfg = s.cfg) (a : Addr) : writeStop t a = writeStop s a := by
  simp only [writeStop, State.kindAt_congr hcfg]

theorem heldAfter_congr {s t : State} (hcfg : t.cfg = s.cfg) {held held' : Addr → Option Byte}
    (hheld : ∀ b, held b = held' b) (a : Addr) (v : Byte) (b : Addr) :
    heldAfter t a v held b = heldAfter s a v held' b := by
  simp only [heldAfter, State.kindAt_congr hcfg, hheld]

/-! ### Reading -/

@[simp] theorem stopOf_readByte (a : Addr) (s : State) : stopOf (readByte a s) = readStop s (s.byteAt a) a := by
  unfold readByte readStop
  cases s.kindAt a with
  | plain | readOnly => cases s.byteAt a <;> rfl
  | device | absent => rfl

/-- A read leaves the parameters and what memory holds as they were, so the next read stops as it would have before. -/
theorem stopOf_readByte_after_read {a b : Addr} {s t : State} {v : Byte} (h : readByte a s = .ok (v, t)) :
    stopOf (readByte b t) = readStop s (s.byteAt b) b := by
  rw [stopOf_readByte, readByte_frame h]
  rfl

@[simp] theorem stopOf_readWord (a : Addr) (s : State) :
    stopOf (readWord a s) = (readStop s (s.byteAt a) a).or (readStop s (s.byteAt (a + 1)) (a + 1)) := by
  have hhigh : ∀ r : Byte × State, readByte a s = .ok r →
      stopOf (readByte (a + 1) r.2) = readStop s (s.byteAt (a + 1)) (a + 1) :=
    fun _ hlow => stopOf_readByte_after_read hlow
  rw [← stopOf_readByte]
  exact stopOf_bind fun r hlow => (stopOf_bind_of_answers fun _ => rfl).trans (hhigh r hlow)

theorem stopOf_returnFromInterrupt (s : State) :
    stopOf (returnFromInterrupt s) =
      (stopOf (readWord s.sp s)).or (readStop s (s.byteAt (s.sp + 2)) (s.sp + 2)) := by
  refine stopOf_bind fun r haddr => (stopOf_bind_of_answers fun _ => rfl).trans ?_
  rw [stopOf_readByte, readWord_frame haddr]
  rfl

/-! ### Writing -/

@[simp] theorem stopOf_writeByte (a : Addr) (v : Byte) (s : State) : stopOf (writeByte a v s) = writeStop s a := by
  unfold writeByte writeStop
  cases s.kindAt a <;> rfl

@[simp] theorem stopOf_push (v : Byte) (s : State) : stopOf (push v s) = writeStop s (s.sp - 1) :=
  stopOf_writeByte _ _ _

theorem push_cfg {v : Byte} {s t : State} (h : push v s = .ok t) : t.cfg = s.cfg := by
  rw [push_frame h]

theorem push_sp {v : Byte} {s t : State} (h : push v s = .ok t) : t.sp = s.sp - 1 := by
  rw [push_frame h]

/-- What memory holds after a push. -/
theorem push_byteAt {v : Byte} {s t : State} (h : push v s = .ok t) (b : Addr) :
    t.byteAt b = heldAfter s (s.sp - 1) v s.byteAt b :=
  writeByte_byteAt (push_eq_ok.1 h) b

@[simp] theorem stopOf_pushWord (v : Addr) (s : State) :
    stopOf (pushWord v s) = (writeStop s (s.sp - 1)).or (writeStop s (s.sp - 2)) := by
  rw [← stopOf_push (hi8 v)]
  refine stopOf_bind fun s1 hhigh => ?_
  have hsp : s1.sp - 1 = s.sp - 2 := by rw [push_sp hhigh]; bv_omega
  rw [stopOf_push, hsp, writeStop_congr (push_cfg hhigh)]

theorem pushWord_cfg {v : Addr} {s t : State} (h : pushWord v s = .ok t) : t.cfg = s.cfg := by
  rw [pushWord_frame h]

/-- What memory holds after a 16-bit push: the high byte was pushed first. -/
theorem pushWord_byteAt {v : Addr} {s t : State} (h : pushWord v s = .ok t) (b : Addr) :
    t.byteAt b = heldAfter s (s.sp - 2) (lo8 v) (heldAfter s (s.sp - 1) (hi8 v) s.byteAt) b := by
  obtain ⟨s1, hhigh, hlow⟩ := pushWord_eq_ok.1 h
  have hsp : s1.sp - 1 = s.sp - 2 := by rw [push_sp hhigh]; bv_omega
  rw [push_byteAt hlow, hsp]
  exact heldAfter_congr (push_cfg hhigh) (push_byteAt hhigh) _ _ b

/-! ### The interrupt entry -/

/-- Once PSR is pushed and Interrupt_Enable cleared, the return address is to be pushed below PSR. -/
theorem entry_push_psr {s s1 : State} (hpsr : push s.psr s = .ok s1) :
    (s1.setFlag iBit false).cfg = s.cfg ∧ (s1.setFlag iBit false).sp - 1 = s.sp - 2 ∧
      (s1.setFlag iBit false).sp - 2 = s.sp - 3 := by
  rw [State.setFlag_cfg, State.setFlag_sp, push_cfg hpsr, push_sp hpsr]
  exact ⟨rfl, by bv_omega, by bv_omega⟩

/-- After the three pushes of an entry the parameters are as before and memory holds what `entryMemory` says. -/
theorem entry_pushes {ret : Addr} {s s1 s2 : State} (hpsr : push s.psr s = .ok s1)
    (hret : pushWord ret (s1.setFlag iBit false) = .ok s2) :
    s2.cfg = s.cfg ∧ ∀ b, s2.byteAt b = entryMemory s ret b := by
  obtain ⟨hcfg, hhi, hlo⟩ := entry_push_psr hpsr
  refine ⟨(pushWord_cfg hret).trans hcfg, fun b => ?_⟩
  rw [pushWord_byteAt hret, hhi, hlo]
  exact heldAfter_congr hcfg (heldAfter_congr hcfg (push_byteAt hpsr) _ _) _ _ b

/-- An interrupt entry stops at the first of its five accesses that does. -/
theorem stopOf_takeInterrupt (n : BitIndex) (ret : Addr) (s : State) :
    stopOf (takeInterrupt n ret s) = entryStop s n ret := by
  rw [entryStop, ← Option.or_assoc (o₁ := writeStop s (s.sp - 2)), ← stopOf_push s.psr s]
  refine stopOf_bind fun s1 hpsr => ?_
  obtain ⟨hcfg1, hhi, hlo⟩ := entry_push_psr hpsr
  have hstack : stopOf (pushWord ret (s1.setFlag iBit false)) =
      (writeStop s (s.sp - 2)).or (writeStop s (s.sp - 3)) := by
    rw [stopOf_pushWord, hhi, hlo, writeStop_congr hcfg1, writeStop_congr hcfg1]
  rw [← hstack]
  refine stopOf_bind fun s2 hret => (stopOf_bind_of_answers fun _ => rfl).trans ?_
  obtain ⟨hcfg2, hmem⟩ := entry_pushes hpsr hret
  have hvec : s2.vectorAddr n = s.vectorAddr n := by simp only [State.vectorAddr, hcfg2]
  rw [stopOf_readWord, hvec, hmem, hmem, readStop_congr hcfg2, readStop_congr hcfg2]

/-- The entry of an external request stops as an entry from the state before the oracle was asked. -/
theorem entryStop_pollRequests (s : State) (n : BitIndex) (ret : Addr) :
    entryStop s.pollRequests n ret = entryStop s n ret := by
  rw [pollRequests_frame s]
  rfl

/-! ### Calls and returns -/

/-- JSR stops as its push does. -/
theorem execJsr_stops {addr : Addr} {s : State} {h : Halt}
    (hstop : (writeStop s (s.sp - 1)).or (writeStop s (s.sp - 2)) = some h) : exec (.jsr addr) s = stopped h :=
  finish_bind_of_stopOf ((stopOf_pushWord _ _).trans hstop)

/-- RTS and RTI both begin by popping an address, and stop as that does. -/
theorem returns_stop {s : State} {h : Halt}
    (hstop : (readStop s (s.byteAt s.sp) s.sp).or (readStop s (s.byteAt (s.sp + 1)) (s.sp + 1)) = some h) :
    exec .rts s = stopped h ∧ exec .rti s = stopped h :=
  have hword : stopOf (readWord s.sp s) = some h := (stopOf_readWord _ _).trans hstop
  ⟨finish_bind_of_stopOf hword, finish_bind_of_stopOf hword⟩

/-! ### Indexed accesses -/

theorem stopOf_storeIndexed {ea : Addr} {e : Pair} {a : Bool} {len : Addr} {s : State}
    (ha : a = true → s.cfg.autoIncrement = true) : stopOf (storeIndexed ea e a len s) = writeStop s ea := by
  have hcheck : checkAutoIncrement a s = .ok () := checkAutoIncrement_eq_ok.2 ha
  rw [storeIndexed, hcheck, ok_bind, stopOf_bind_of_answers fun _ => rfl, stopOf_writeByte]

theorem stopOf_loadIndexed {ea : Addr} {e : Pair} {a : Bool} {len : Addr} {s : State}
    (ha : a = true → s.cfg.autoIncrement = true) :
    stopOf (loadIndexed ea e a len s) = readStop s (s.byteAt ea) ea := by
  have hcheck : checkAutoIncrement a s = .ok () := checkAutoIncrement_eq_ok.2 ha
  rw [loadIndexed, hcheck, ok_bind, stopOf_bind_of_answers fun _ => rfl, stopOf_readByte]

/-! ## Where the fetch stops -/

/-- Why the fetch of an instruction byte stops: the program has stored to it (R62), else as a read does (R66). -/
def fetchStop (s : State) (a : Addr) : Option Halt :=
  if s.modified a then some (.refusal (.fetchOfModifiedByte a)) else readStop s (s.byteAt a) a

theorem fetchStop_of_modified {s : State} {a : Addr} (hm : s.modified a = true) :
    fetchStop s a = some (.refusal (.fetchOfModifiedByte a)) := if_pos hm

theorem fetchStop_of_unmodified {s : State} {a : Addr} (hm : s.modified a = false) :
    fetchStop s a = readStop s (s.byteAt a) a := by simp [fetchStop, hm]

@[simp] theorem stopOf_fetchByte (a : Addr) (s : State) : stopOf (fetchByte a s) = fetchStop s a := by
  unfold fetchByte fetchStop
  split
  · rfl
  · exact stopOf_readByte a s

@[simp] theorem fetchStop_pollRequests (s : State) (a : Addr) : fetchStop s.pollRequests a = fetchStop s a := by
  rw [pollRequests_frame s]
  rfl

/-- Where no request is taken, a fetch that stops stops the step. -/
theorem step_of_fetch_error {s : State} {h : Halt} (hr : s.takenRequest = none)
    (hf : fetch s.pollRequests = .error h) : step s = stopped h := by
  simp only [step, hr, hf]
  rfl

theorem step_stops_at_first_byte {s : State} {h : Halt} (hr : s.takenRequest = none)
    (hstop : fetchStop s s.pc = some h) : step s = stopped h := by
  have hfirst : fetchByte s.pollRequests.pc s.pollRequests = .error h :=
    stopOf_eq_some.1 (by simpa using hstop)
  exact step_of_fetch_error hr (by rw [fetch, hfirst, error_bind])

theorem step_stops_at_second_byte {s : State} {b0 : Byte} {h : Halt} (hr : s.takenRequest = none)
    (hbytes : BytesAt s s.pc [b0]) (hlen : 2 ≤ instrLength b0) (hstop : fetchStop s (s.pc + 1) = some h) :
    step s = stopped h := by
  have hfirst : fetchByte s.pollRequests.pc s.pollRequests = .ok (b0, s.pollRequests) :=
    (bytesAt_pollRequests.2 (pollRequests_pc s ▸ hbytes)).fetchByte_head.1
  have hsecond : fetchByte (s.pollRequests.pc + 1) s.pollRequests = .error h :=
    stopOf_eq_some.1 (by simpa using hstop)
  refine step_of_fetch_error hr ?_
  simp only [fetch, hfirst, ok_bind]
  split
  next hone => omega
  next => rw [hsecond, error_bind]
  next => rw [hsecond, error_bind]

theorem step_stops_at_third_byte {s : State} {b0 b1 : Byte} {h : Halt} (hr : s.takenRequest = none)
    (hbytes : BytesAt s s.pc [b0, b1]) (hlen : instrLength b0 = 3) (hstop : fetchStop s (s.pc + 2) = some h) :
    step s = stopped h := by
  have hbytes' : BytesAt s.pollRequests s.pollRequests.pc [b0, b1] :=
    bytesAt_pollRequests.2 (pollRequests_pc s ▸ hbytes)
  obtain ⟨hfirst, htail⟩ := hbytes'.fetchByte_head
  obtain ⟨hsecond, _⟩ := htail.fetchByte_head
  have hthird : fetchByte (s.pollRequests.pc + 2) s.pollRequests = .error h :=
    stopOf_eq_some.1 (by simpa using hstop)
  refine step_of_fetch_error hr ?_
  simp only [fetch, hfirst, hlen, hsecond, hthird, ok_bind, error_bind]

theorem takenRequest_off {s : State} (h : s.cfg.extInterrupts = false) : s.takenRequest = none := by
  simp only [State.takenRequest, h]

/-- STA marks its address as stored to (R62). -/
theorem execSta_modified {n : Reg} {addr : Addr} {s t : State} (h : execSta n addr s = .next t) :
    t.modified addr = true ∧ t.cfg = s.cfg := by
  obtain ⟨s1, hwrite, rfl⟩ := execSta_eq_next.1 h
  refine ⟨?_, ?_⟩
  · rw [State.modified_advance, writeByte_modified hwrite]
    simp
  · rw [State.advance_cfg, writeByte_frame hwrite]

/-! ## Placing an instruction -/

/-- Loading a byte puts memory behind its own address and takes none away from another. -/
theorem holdsBytes_loadByte (a b : Addr) (v : Byte) (s : State) :
    holdsBytes ((loadByte a v s).kindAt b) = (decide (b = a) || holdsBytes (s.kindAt b)) := by
  by_cases hmem : holdsBytes (s.kindAt a) = true
  · have hkind : (loadByte a v s).kindAt b = s.kindAt b := State.kindAt_congr (if_pos hmem) b
    rw [hkind]
    by_cases hb : b = a
    · simp [hb, hmem]
    · simp [hb]
  · have hcfg : (loadByte a v s).cfg = { s.cfg with memMap := ⟨a.toNat, 1, .plain⟩ :: s.cfg.memMap } := if_neg hmem
    have hcell : (a.toNat ≤ b.toNat ∧ b.toNat < a.toNat + 1) ↔ b = a := by
      rw [← BitVec.toNat_inj]
      omega
    simp only [State.kindAt, hcfg, regionKind, hcell]
    by_cases hb : b = a <;> simp [hb, holdsBytes]

theorem bytesAt_cons {s : State} {a : Addr} {v : Byte} {rest : List Byte} :
    BytesAt s a (v :: rest) ↔ BytesAt s a [v] ∧ BytesAt s (a + 1) rest := by
  simp [BytesAt, and_assoc]

theorem bytesAt_loadByte_same (a : Addr) (v : Byte) (s : State) : BytesAt (loadByte a v s) a [v] := by
  simp [BytesAt, holdsBytes_loadByte, loadByte_byteAt, loadByte_modified]

theorem bytesAt_loadByte_other {a b : Addr} {v w : Byte} {s : State} (hne : b ≠ a) (h : BytesAt s b [w]) :
    BytesAt (loadByte a v s) b [w] := by
  simpa [BytesAt, holdsBytes_loadByte, loadByte_byteAt, loadByte_modified, hne] using h

/-- A byte outside the loaded range stays where it lies; `b - a` is the distance upwards, around the wrap. -/
theorem bytesAt_loadBytes_outside {a b : Addr} {w : Byte} {bytes : List Byte} {s : State}
    (hout : bytes.length ≤ (b - a).toNat) (h : BytesAt s b [w]) : BytesAt (loadBytes a bytes s) b [w] := by
  induction bytes generalizing a s with
  | nil => exact h
  | cons v rest ih =>
    rw [List.length_cons] at hout
    have hne : b ≠ a := by
      rintro rfl
      simp at hout
    have hrest : rest.length ≤ (b - (a + 1)).toNat := by bv_omega
    exact ih hrest (bytesAt_loadByte_other hne h)

/-- Bytes that fit into the address space lie where they were loaded. -/
theorem bytesAt_loadBytes {a : Addr} {bytes : List Byte} {s : State} (hfit : bytes.length ≤ addressSpace) :
    BytesAt (loadBytes a bytes s) a bytes := by
  induction bytes generalizing a s with
  | nil => trivial
  | cons v rest ih =>
    simp only [List.length_cons, addressSpace] at hfit
    have hdist : (a - (a + 1)).toNat = 65535 := by bv_omega
    have hout : rest.length ≤ (a - (a + 1)).toNat := by omega
    have hhead : BytesAt (loadBytes (a + 1) rest (loadByte a v s)) a [v] :=
      bytesAt_loadBytes_outside hout (bytesAt_loadByte_same a v s)
    exact bytesAt_cons.2 ⟨hhead, ih (Nat.le_of_succ_le hfit)⟩

/-- Loading changes memory, its map and the marks only. -/
theorem loadBytes_frame (a : Addr) (bytes : List Byte) (s : State) :
    loadBytes a bytes s = { s with
      cfg := (loadBytes a bytes s).cfg, mem := (loadBytes a bytes s).mem, stored := (loadBytes a bytes s).stored } := by
  induction bytes generalizing a s with
  | nil => rfl
  | cons v rest ih => exact ih (a + 1) (loadByte a v s)

theorem quietRequests_frame (s : State) : quietRequests s = { s with requests := (quietRequests s).requests } := by
  unfold quietRequests
  split <;> rfl

/-- Where no number is requested, none is taken. -/
theorem takenRequest_quietRequests (s : State) : (quietRequests s).takenRequest = none := by
  unfold quietRequests
  split
  next hext _ => simp [State.takenRequest, hext, bitOf]
  next hnone =>
    unfold State.takenRequest
    split
    next hext hreq => exact absurd hreq (hnone _ _ hext)
    next => rfl

/-- Placing an instruction writes no register. -/
theorem withFetchWord_frame (s : State) (nbits w : Nat) :
    s.withFetchWord nbits w = { s with
      cfg := (s.withFetchWord nbits w).cfg, mem := (s.withFetchWord nbits w).mem,
      stored := (s.withFetchWord nbits w).stored, requests := (s.withFetchWord nbits w).requests } := by
  unfold State.withFetchWord
  rw [quietRequests_frame, loadBytes_frame]

theorem length_bytesOfNat (w k count : Nat) : (bytesOfNat w k count).length = count := by
  induction count generalizing k with
  | zero => rfl
  | succ c ih => simp [bytesOfNat, ih]

theorem length_layoutBytes_le (nbits w : Nat) : (layoutBytes nbits w).length ≤ addressSpace := by
  rw [layoutBytes, length_bytesOfNat, layoutLength, addressSpace]
  omega

/-- The placed bytes lie at the program counter. -/
theorem bytesAt_withFetchWord (s : State) (nbits w : Nat) :
    BytesAt (s.withFetchWord nbits w) s.pc (layoutBytes nbits w) := by
  unfold State.withFetchWord
  rw [quietRequests_frame]
  exact bytesAt_requests.2 (bytesAt_loadBytes (length_layoutBytes_le nbits w))

theorem decode_of_decodeTableWord {nbits w : Nat} {i : Instr} (h : decodeTableWord nbits w = some i) :
    ∃ rest, decode (layoutBytes nbits w) = .ok (i, rest) := by
  unfold decodeTableWord at h
  split at h
  next rest hd => exact ⟨rest, by rw [hd, Option.some.inj h]⟩
  next => cases h

/-! ## The stack -/

/-- What stays within a footprint has the frame of its lists. -/
theorem Within.frame {w : Footprint} {s t : State} (h : Within w s t) (hmask : w.mask = false) :
    Frame w.regs w.flags w.addrs s t :=
  ⟨h.regs, h.flags, h.memory, h.mask hmask, h.inputs⟩

/-- A push to plain memory finishes, and the byte is then read at STACK. -/
theorem push_of_plain {s : State} (v : Byte) (hk : s.kindAt (s.sp - 1) = .plain) :
    ∃ t, push v s = .ok t ∧ holdsBytes (t.kindAt t.sp) = true ∧ t.byteAt t.sp = some v := by
  have hpush : push v s = .ok _ := writeByte_eq_ok.2 (.inl ⟨hk, rfl⟩)
  refine ⟨_, hpush, ?_, ?_⟩
  · rw [State.kindAt_congr (push_cfg hpush), push_sp hpush, hk]
    rfl
  · rw [push_byteAt hpush, push_sp hpush]
    exact if_pos ⟨rfl, hk⟩

/-! ## The obligations -/

/-- Settles O10: the placed bytes lie at the program counter, no request stands before them, and they decode to the
instruction. -/
theorem placedWordRunsNext : Obligations.PlacedWordRunsNext := by
  intro s nbits w i hword
  obtain ⟨rest, hdecode⟩ := decode_of_decodeTableWord hword
  have hframe := withFetchWord_frame s nbits w
  have hpc : (s.withFetchWord nbits w).pollRequests.pc = s.pc := by rw [pollRequests_pc, hframe]
  have hbytes : BytesAt (s.withFetchWord nbits w).pollRequests (s.withFetchWord nbits w).pollRequests.pc
      (layoutBytes nbits w) := by
    rw [hpc]
    exact bytesAt_pollRequests.2 (bytesAt_withFetchWord s nbits w)
  refine ⟨step_of_fetch (takenRequest_quietRequests _) (fetch_of_bytesAt hbytes hdecode), ?_⟩
  rw [hframe]
  exact ⟨rfl, rfl, rfl, rfl, rfl⟩

/-- Settles O11: each byte is fetched after the ones before it, and stops the step where the program has stored to it or
it cannot be read. -/
theorem fetchStopsOnModifiedOrUnwritten : Obligations.FetchStopsOnModifiedOrUnwritten := by
  refine ⟨fun s hr hm => step_stops_at_first_byte hr (fetchStop_of_modified hm),
    fun s b0 hr hb hlen hm => step_stops_at_second_byte hr hb hlen (fetchStop_of_modified hm),
    fun s b0 b1 hr hb hlen hm => step_stops_at_third_byte hr hb hlen (fetchStop_of_modified hm),
    ?after_store,
    fun s h hr hm hread => step_stops_at_first_byte hr ((fetchStop_of_unmodified hm).trans hread),
    fun s b0 h hr hb hlen hm hread =>
      step_stops_at_second_byte hr hb hlen ((fetchStop_of_unmodified hm).trans hread),
    fun s b0 b1 h hr hb hlen hm hread =>
      step_stops_at_third_byte hr hb hlen ((fetchStop_of_unmodified hm).trans hread)⟩
  case after_store =>
    rintro s t n addr hext hsta rfl
    obtain ⟨hm, hcfg⟩ := execSta_modified hsta
    exact step_stops_at_first_byte (takenRequest_off (hcfg ▸ hext)) (fetchStop_of_modified hm)

/-- Settles O32: the pushed byte lies at STACK, where the pop reads it. -/
theorem popAfterPushGivesTheByte : Obligations.PopAfterPushGivesTheByte := by
  intro n m s hk
  obtain ⟨s1, hpush, hheld, hbyte⟩ := push_of_plain (s.reg n) hk
  have hpop : readByte (s1.advance 1).sp (s1.advance 1) = .ok (s.reg n, s1.advance 1) :=
    readByte_of_held hheld hbyte
  refine ⟨_, execPsh_eq_next.2 ⟨s1, hpush, rfl⟩, _, execPop_eq_next.2 ⟨_, _, hpop, rfl⟩, ?_, ?_, ?_⟩
  · simp
  · have hsp : s1.sp = s.sp - 1 := push_sp hpush
    simp [hsp]
  · have pushed : Within ⟨[m], [], [s.sp - 1], true, false⟩ s s1 :=
      Within.refl.push hpush rfl (List.mem_singleton_self _)
    exact ((pushed.advance.readByte hpop).setReg (List.mem_singleton_self m)).setSp.advance.frame rfl

/-- Settles O51: the access is the first operation of the instruction that can stop. -/
theorem singleAccessStopsItsInstruction : Obligations.SingleAccessStopsItsInstruction := by
  intro s n e a o addr h
  refine ⟨fun hr => finish_bind_of_stopOf ((stopOf_readByte _ _).trans hr),
    fun hr => finish_bind_of_stopOf ((stopOf_readByte _ _).trans hr),
    fun hw => finish_bind_of_stopOf ((stopOf_push _ _).trans hw),
    fun hw => finish_bind_of_stopOf ((stopOf_writeByte _ _ _).trans hw), fun ha => ⟨?_, ?_, ?_, ?_⟩⟩
  · exact fun hr => finish_of_stopOf ((stopOf_loadIndexed ha).trans hr)
  · exact fun hr => finish_of_stopOf ((stopOf_loadIndexed ha).trans hr)
  · exact fun hw => finish_of_stopOf ((stopOf_storeIndexed ha).trans hw)
  · exact fun hw => finish_of_stopOf ((stopOf_storeIndexed ha).trans hw)

/-- Settles O52: a chain of accesses stops at the first that does. -/
theorem firstBadAccessStopsTheSequence : Obligations.FirstBadAccessStopsTheSequence := by
  intro s h
  refine ⟨fun addr => ⟨?jsrHigh, ?jsrLow⟩, ⟨?popFirst, ?popSecond, ?popThird⟩, ?int, ?external⟩
  case jsrHigh => exact fun hw => execJsr_stops (Option.or_eq_some_iff.2 (.inl hw))
  case jsrLow => exact fun hok hw => execJsr_stops (Option.or_eq_some_iff.2 (.inr ⟨hok, hw⟩))
  case popFirst => exact fun hr => returns_stop (Option.or_eq_some_iff.2 (.inl hr))
  case popSecond => exact fun hok hr => returns_stop (Option.or_eq_some_iff.2 (.inr ⟨hok, hr⟩))
  case popThird =>
    intro hok hok' hr
    have haddr : stopOf (readWord s.sp s) = none :=
      (stopOf_readWord _ _).trans (Option.or_eq_none_iff.2 ⟨hok, hok'⟩)
    exact finish_of_stopOf ((stopOf_returnFromInterrupt s).trans (Option.or_eq_some_iff.2 (.inr ⟨haddr, hr⟩)))
  case int =>
    intro n hacc hstop
    have hentry : exec (.int n) s = finish (takeInterrupt n s.intReturn s) := if_pos hacc
    exact hentry.trans (finish_of_stopOf ((stopOf_takeInterrupt _ _ _).trans hstop))
  case external =>
    intro n hreq hstop
    have hentry : step s = finish (takeInterrupt n s.pc s.pollRequests) := by simp only [step, hreq]
    have hstop' := (entryStop_pollRequests s n s.pc).trans hstop
    exact hentry.trans (finish_of_stopOf ((stopOf_takeInterrupt _ _ _).trans hstop'))

end Sys2Proof.Machine
end

section
/-! PROOFS. Instruction bytes to instructions and back, and the operand of a branch (30_encoding.md). -/

namespace Sys2Proof.Machine

/-! ## Hardware instructions, unassigned bytes and pseudo-mnemonics -/

theorem isUnassigned_iff {i : Instr} : i.isUnassigned = true ↔ ∃ e, i = .unassigned e := by
  constructor
  · intro h
    cases i with
    | unassigned e => exact ⟨e, rfl⟩
    | _ => cases h
  · rintro ⟨e, rfl⟩
    rfl

/-- What is no pseudo-mnemonic is one of the 40 rows the decoder looks at (R98). -/
theorem isAlias_eq_false_iff {i : Instr} : i.isAlias = false ↔ i.wellFormed = true ∨ ∃ e, i = .unassigned e := by
  constructor
  · intro h
    by_cases hu : i.isUnassigned = true
    · exact .inr (isUnassigned_iff.1 hu)
    · exact .inl (by simp [Instr.wellFormed, h, hu])
  · rintro (hwf | ⟨e, rfl⟩)
    · simp only [Instr.wellFormed, Bool.and_eq_true, Bool.not_eq_true'] at hwf
      exact hwf.1
    · rfl

/-! ## The length of an encoding -/

theorem length_encode (i : Instr) : (encode i).length = i.length := by
  cases i <;> rfl

/-- The table of R89 over the two fields of the first byte. -/
theorem instrLength_eq_table (b0 : Byte) : instrLength b0 =
    (let op := b0.toNat / 8
     let sel := b0.toNat % 8
     if op = 18 ∨ op = 19 ∨ op = 20 ∨ op = 27 ∨ op = 28 ∨ op = 31 then 2
     else if op = 25 ∨ op = 29 ∨ (op = 23 ∧ (sel = 4 ∨ sel = 7)) then 3 else 1) := by
  unfold instrLength
  rw [opcodeField_toNat, subopField_toNat]
  split
  case h_1 hop | h_2 hop | h_3 hop | h_4 hop | h_5 hop | h_6 hop | h_7 hop | h_8 hop => simp [hop]
  case h_9 hop =>
    split
    case h_1 hsel | h_2 hsel => simp [hop, hsel]
    case h_3 => simp_all
  case h_10 => simp_all

theorem instrLength_cases (b0 : Byte) : instrLength b0 = 1 ∨ instrLength b0 = 2 ∨ instrLength b0 = 3 := by
  rw [instrLength_eq_table]
  dsimp only
  split
  · simp
  · split <;> simp

/-! ## Encoding what was decoded -/

theorem firstByte_eq_iff {o : BitVec 5} {f : BitVec 3} {b0 : Byte} :
    firstByte o f = b0 ↔ (opcodeField b0).toNat = o.toNat ∧ (subopField b0).toNat = f.toNat := by
  simp only [BitVec.toNat_inj]
  constructor
  · rintro rfl
    exact ⟨opcodeField_firstByte o f, subopField_firstByte o f⟩
  · rintro ⟨rfl, rfl⟩
    exact firstByte_fields b0

/-- Opcode 10111 has an instruction for every value of the Select field, with an operand in two of them (R88). -/
theorem encode_decodeSelect {b0 : Byte} (b1 b2 : Byte) (hop : (opcodeField b0).toNat = 23) :
    encode (decodeSelect (subopField b0) (word16 b2 b1)) = [b0, b1, b2].take (instrLength b0) := by
  unfold decodeSelect
  split
  case h_1 hsel | h_2 hsel | h_3 hsel | h_4 hsel | h_5 hsel | h_6 hsel | h_7 hsel =>
    simp [encode, instrLength, hop, hsel, firstByte_eq_iff]
  case h_8 =>
    have hsel : (subopField b0).toNat = 7 := by
      simp only [imp_false] at *
      omega
    simp [encode, instrLength, hop, hsel, firstByte_eq_iff]

/-- Opcode 11000 with A = 0 is UPP, and with A = 1 it is unassigned (R84, R95). -/
theorem encode_pair_or_unassigned {b0 : Byte} (b1 b2 : Byte) (hop : (opcodeField b0).toNat = 24) :
    encode (if autoField (subopField b0) then .unassigned (pairOf (subopField b0)) else .upp (pairOf (subopField b0))) =
      [b0, b1, b2].take (instrLength b0) := by
  have hencode : ∀ a, encode (if a then .unassigned (pairOf (subopField b0)) else .upp (pairOf (subopField b0))) =
      [firstByte 24 (pairAutoBits (pairOf (subopField b0)) a)] := fun a => by cases a <;> rfl
  rw [hencode, pairAutoBits_fields]
  simp [instrLength, hop, firstByte_eq_iff]

/-- The instruction read from a first byte and its operand bytes is encoded as exactly the bytes its length covers: each
opcode's arm puts back the fields it took apart. -/
theorem encode_decodeBytes (b0 b1 b2 : Byte) :
    encode (decodeBytes b0 b1 b2) = [b0, b1, b2].take (instrLength b0) := by
  unfold decodeBytes
  dsimp only
  split
  case h_24 hop => exact encode_decodeSelect b1 b2 hop
  case h_25 hop => exact encode_pair_or_unassigned b1 b2 hop
  case h_32 =>
    have hop : (opcodeField b0).toNat = 31 := by
      simp only [imp_false] at *
      omega
    simp [encode, instrLength, hop, firstByte_eq_iff]
  all_goals
    next hop => simp [encode, instrLength, hop, firstByte_eq_iff]

/-- The decoder answers no pseudo-mnemonic (R98). -/
theorem decodeBytes_isAlias (b0 b1 b2 : Byte) : (decodeBytes b0 b1 b2).isAlias = false := by
  unfold decodeBytes decodeSelect
  dsimp only
  split
  case h_24 => split <;> rfl
  case h_25 => split <;> rfl
  all_goals rfl

/-- The four unassigned rows have opcode 11000 and A = 1, one for each pair (R95). -/
theorem decodeBytes_eq_unassigned {b0 b1 b2 : Byte} {e : Pair} :
    decodeBytes b0 b1 b2 = .unassigned e ↔ b0 = firstByte 24 (pairAutoBits e true) := by
  constructor
  · intro h
    have hhead : (encode (decodeBytes b0 b1 b2)).head? = some b0 := by
      rw [encode_decodeBytes]
      obtain hlen | hlen | hlen := instrLength_cases b0 <;> rw [hlen] <;> rfl
    rw [h] at hhead
    exact (Option.some.inj hhead).symm
  · rintro rfl
    simp [decodeBytes]

theorem length_decodeBytes (b0 b1 b2 : Byte) : (decodeBytes b0 b1 b2).length = instrLength b0 := by
  rw [← length_encode, encode_decodeBytes, List.length_take]
  obtain h | h | h := instrLength_cases b0 <;> rw [h] <;> rfl

/-! ## Decoding a list of bytes -/

theorem decode_of_enough_bytes {b0 : Byte} {rest : List Byte} (h : instrLength b0 ≤ rest.length + 1) :
    ∃ b1 b2, decode (b0 :: rest) = .ok (decodeBytes b0 b1 b2, (b0 :: rest).drop (instrLength b0)) := by
  obtain hlen | hlen | hlen := instrLength_cases b0 <;> rw [hlen] at h ⊢
  · exact ⟨0, 0, decode_of_length_one rest hlen⟩
  · match rest with
    | b1 :: rest => exact ⟨b1, 0, decode_of_length_two b1 rest hlen⟩
  · match rest with
    | b1 :: b2 :: rest => exact ⟨b1, b2, decode_of_length_three b1 b2 rest hlen⟩

theorem decode_of_missing_bytes {b0 : Byte} {rest : List Byte} (h : rest.length + 1 < instrLength b0) :
    decode (b0 :: rest) = .error .missingOperandBytes := by
  obtain hlen | hlen | hlen := instrLength_cases b0 <;> rw [hlen] at h
  · exact absurd h (by omega)
  · match rest with
    | [] => simp only [decode, hlen]
    | _ :: _ => exact absurd h (by simp)
  · match rest with
    | [] | [_] => simp only [decode, hlen]
    | _ :: _ :: _ => exact absurd h (by simp)

/-- What was decoded is `decodeBytes` of the bytes its length covers, and the rest is what follows them. -/
theorem bytes_of_decode_eq_ok {bytes rest : List Byte} {i : Instr} (h : decode bytes = .ok (i, rest)) :
    ∃ b0 b1 b2, i = decodeBytes b0 b1 b2 ∧ bytes = [b0, b1, b2].take (instrLength b0) ++ rest := by
  cases bytes with
  | nil => cases h
  | cons b0 operands =>
    unfold decode at h
    dsimp only at h
    split at h
    case h_1 hlen => cases h; exact ⟨b0, 0, 0, rfl, by rw [hlen]; rfl⟩
    case h_2 b1 _ hlen => cases h; exact ⟨b0, b1, 0, rfl, by rw [hlen]; rfl⟩
    case h_3 b1 b2 _ hlen => cases h; exact ⟨b0, b1, b2, rfl, by rw [hlen]; rfl⟩
    case h_4 => cases h

/-- The round trip of the hardware instructions, with the unassigned bytes beside them. -/
theorem decode_encode_append_of_isAlias_eq_false {i : Instr} (h : i.isAlias = false) (rest : List Byte) :
    decode (encode i ++ rest) = .ok (i, rest) := by
  obtain hwf | ⟨e, rfl⟩ := isAlias_eq_false_iff.1 h
  · exact decode_encode_append hwf rest
  · exact (decode_of_length_one rest (by simp [instrLength])).trans (by simp [decodeBytes])

/-- A sequence of hardware instructions and unassigned bytes is read back from its bytes, one after another. -/
theorem decodeMany_encode {is : List Instr} (h : ∀ j ∈ is, j.isAlias = false) (rest : List Byte) :
    decodeMany is.length (is.flatMap encode ++ rest) = .ok (is, rest) := by
  induction is with
  | nil => rfl
  | cons i is ih =>
    obtain ⟨hi, his⟩ := List.forall_mem_cons.1 h
    simp [decodeMany, decode_encode_append_of_isAlias_eq_false hi, ih his]

/-! ## Expansions -/

theorem expansion_of_isAlias_eq_false {i : Instr} (h : i.isAlias = false) : expansion i = [i] := by
  cases i with
  | sti | cli | stz | clz | stn | cln | stc | clc | nop | clr => cases h
  | brz _ | brnz _ | brlz _ | brgez _ | brc _ | brnc _ => cases h
  | jmpz _ | jmpnz _ | jmplz _ | jmpgez _ | jmpc _ | jmpnc _ => cases h
  | _ => rfl

/-- A pseudo-mnemonic stands for one hardware instruction, or for a branch around a jump (R220, R243). -/
theorem expansion_of_isAlias {i : Instr} (h : i.isAlias = true) :
    encode i = (expansion i).flatMap encode ∧ ∀ j ∈ expansion i, j.isAlias = false := by
  cases i with
  | sti | cli | stz | clz | stn | cln | stc | clc | nop | clr =>
    exact ⟨rfl, List.forall_mem_singleton.2 rfl⟩
  | brz _ | brnz _ | brlz _ | brgez _ | brc _ | brnc _ => exact ⟨rfl, List.forall_mem_singleton.2 rfl⟩
  | jmpz _ | jmpnz _ | jmplz _ | jmpgez _ | jmpc _ | jmpnc _ =>
    exact ⟨rfl, List.forall_mem_cons.2 ⟨rfl, List.forall_mem_singleton.2 rfl⟩⟩
  | _ => cases h

theorem encode_eq_expansion (i : Instr) : encode i = (expansion i).flatMap encode := by
  cases h : i.isAlias with
  | false => rw [expansion_of_isAlias_eq_false h, List.flatMap_singleton]
  | true => exact (expansion_of_isAlias h).1

theorem isAlias_of_mem_expansion {i j : Instr} (hj : j ∈ expansion i) : j.isAlias = false := by
  cases h : i.isAlias with
  | false =>
    rw [expansion_of_isAlias_eq_false h, List.mem_singleton] at hj
    rwa [hj]
  | true => exact (expansion_of_isAlias h).2 j hj

/-! ## Branch operands -/

@[simp] theorem lo8_signExtend16 (o : Byte) : lo8 (signExtend16 o) = o := by
  ext k hk
  simp [lo8, signExtend16, BitVec.getElem_signExtend, hk, Nat.lt_trans hk (by decide : 8 < 16)]

/-- The byte assembled for a target is the one whose sign extension is the distance to it (R104). -/
theorem branchOffset_eq_some {site target : Addr} {o : Byte} :
    branchOffset site target = some o ↔ signExtend16 o = target - site := by
  unfold branchOffset
  constructor
  · intro h
    split at h
    next hext => exact Option.some.inj h ▸ hext
    next => cases h
  · intro h
    rw [← h, lo8_signExtend16, if_pos rfl]

/-! ## The obligations -/

/-- Settles O2: the length and the opcode of the first byte are those of the encoded instruction. -/
theorem decodeOfEncodeIsTheInstruction : Obligations.DecodeOfEncodeIsTheInstruction :=
  fun _ rest hwf => decode_encode_append hwf rest

/-- Settles O3: what is decoded is `decodeBytes` of the bytes its length covers, whose
encoding they are and which is no pseudo-mnemonic. -/
theorem encodeOfDecodeIsTheBytes : Obligations.EncodeOfDecodeIsTheBytes := by
  intro bytes rest i h
  obtain ⟨b0, b1, b2, rfl, rfl⟩ := bytes_of_decode_eq_ok h
  rw [encode_decodeBytes]
  exact ⟨rfl, isAlias_eq_false_iff.1 (decodeBytes_isAlias b0 b1 b2)⟩

/-- Settles O4: the table is `instrLength`, and the decoder asks for that many bytes and no more. -/
theorem lengthFollowsTheFirstByte : Obligations.LengthFollowsTheFirstByte := by
  intro b0 rest op sel len
  have hlen : len = instrLength b0 := (instrLength_eq_table b0).symm
  rw [hlen]
  split
  next henough =>
    obtain ⟨b1, b2, hdecode⟩ := decode_of_enough_bytes henough
    exact ⟨_, hdecode, length_decodeBytes b0 b1 b2⟩
  next hmissing => exact decode_of_missing_bytes (Nat.not_le.1 hmissing)

/-- Settles O5: the first byte of an unassigned row is 0xC1, 0xC3, 0xC5 or 0xC7, by its pair. -/
theorem unassignedBytesAreRefused : Obligations.UnassignedBytesAreRefused := by
  refine ⟨fun b0 b1 b2 => ?_, fun _ _ => rfl⟩
  simp only [decodeBytes_eq_unassigned]
  constructor
  · rintro ⟨e, rfl⟩
    cases e <;> decide
  · rintro (rfl | rfl | rfl | rfl)
    exacts [⟨.p0, rfl⟩, ⟨.p2, rfl⟩, ⟨.p4, rfl⟩, ⟨.p6, rfl⟩]

/-- Settles O6: the bytes are those of the expansion, which holds no pseudo-mnemonic, so they are read back in
order. -/
theorem bytesReadAsTheExpansion : Obligations.BytesReadAsTheExpansion := by
  intro i
  have hparts : ∀ j ∈ expansion i, j.isAlias = false := fun _ => isAlias_of_mem_expansion
  refine ⟨?_, expansion_of_isAlias_eq_false, hparts⟩
  have hread := decodeMany_encode hparts []
  rwa [List.append_nil, ← encode_eq_expansion] at hread

/-- Settles O7: the assembled byte is the distance to the target, and a branch adds that distance to its own address. -/
theorem assembledOffsetReachesTarget : Obligations.AssembledOffsetReachesTarget := by
  refine ⟨fun s target o h => ?_, fun s o => branchOffset_eq_some.2 ?_⟩
  · rw [State.branchTarget, branchOffset_eq_some.1 h, BitVec.add_comm, BitVec.sub_add_cancel]
  · rw [State.branchTarget, BitVec.add_comm, BitVec.add_sub_cancel]

/-- Settles O1: the decoder evaluates each of the nine words. -/
theorem sampleWordsDecodeAsEncoded : Obligations.SampleWordsDecodeAsEncoded :=
  ⟨rfl, rfl, rfl, rfl, rfl, rfl, rfl, rfl, rfl⟩

end Sys2Proof.Machine
end

section
/-! PROOFS. Arithmetic, logic, rotation and the bits of PSR (40_alu_and_psr.md). -/

namespace Sys2Proof.Machine

/-! ## One-byte encodings -/

theorem firstByte_eq_add (o : BitVec 5) (f : BitVec 3) : firstByte o f = firstByte o 0 + f.setWidth 8 := by
  apply BitVec.eq_of_toNat_eq
  simp only [BitVec.toNat_add, firstByte_toNat, BitVec.toNat_setWidth, BitVec.ofNat_eq_ofNat, BitVec.toNat_ofNat]
  omega

@[simp] theorem setWidth_regBits (n : Reg) : (regBits n).setWidth 8 = n.number := by cases n <;> rfl

@[simp] theorem setWidth_indexBits (n : BitIndex) : (indexBits n).setWidth 8 = indexNumber n := by
  revert n; decide

/-- A hardware instruction whose only operand stands in the low three bits of its one byte (R81, R82, R83). -/
theorem encodedAs_of_field {i : Instr} {o : BitVec 5} {f : BitVec 3} (hwf : i.wellFormed = true)
    (hencode : encode i = [firstByte o f]) : EncodedAs i [firstByte o 0 + f.setWidth 8] := by
  rw [← firstByte_eq_add, ← hencode]
  exact ⟨rfl, by simpa using decode_encode_append hwf []⟩

theorem encodedAs_of_register {i : Instr} (o : BitVec 5) {n : Reg} (hencode : encode i = [firstByte o (regBits n)])
    (hwf : i.wellFormed = true := by rfl) : EncodedAs i [firstByte o 0 + n.number] :=
  setWidth_regBits n ▸ encodedAs_of_field hwf hencode

theorem encodedAs_of_index {i : Instr} (o : BitVec 5) {n : BitIndex}
    (hencode : encode i = [firstByte o (indexBits n)]) (hwf : i.wellFormed = true := by rfl) :
    EncodedAs i [firstByte o 0 + indexNumber n] :=
  setWidth_indexBits n ▸ encodedAs_of_field hwf hencode

/-! ## What is kept, and what follows of an outcome -/

theorem NextWith.mono {r : Result} {P Q : State → Prop} (h : NextWith r P) (hPQ : ∀ t, P t → Q t) : NextWith r Q :=
  let ⟨t, ht, hP⟩ := h
  ⟨t, ht, hPQ t hP⟩

/-- What stays within registers and flags, and uses no free value, changes nothing else. -/
theorem Within.onlyRegsAndFlags {regs : List Reg} {flags : List BitIndex} {s t : State}
    (h : Within ⟨regs, flags, [], false, false⟩ s t) (hfree : t.freeCount = s.freeCount := by rfl) :
    OnlyRegsAndFlags regs flags s t :=
  ⟨h.frame rfl, h.stack rfl, hfree⟩

/-! ## Flags as numbers -/

theorem bitOf_seven (v : Byte) : bitOf v 7 = decide (128 ≤ v.toNat) :=
  (BitVec.msb_eq_getLsbD_last v).symm.trans (BitVec.msb_eq_decide v)

theorem bitOf_zero (v : Byte) : bitOf v 0 = decide (v.toNat % 2 = 1) := Nat.testBit_zero v.toNat

theorem low8_toNat (t : BitVec 9) : (low8 t).toNat = t.toNat % 256 := BitVec.toNat_setWidth 8 t

theorem carry9_eq_decide (t : BitVec 9) : carry9 t = decide (256 ≤ t.toNat) :=
  (BitVec.msb_eq_getLsbD_last t).symm.trans (BitVec.msb_eq_decide t)

theorem bitOf_low8_seven (t : BitVec 9) : bitOf (low8 t) 7 = t.getLsbD 7 := by
  simp [bitOf, low8]

theorem signAndZeroOf_of_flags {v : Byte} {t : State} (hN : t.flag nBit = bitOf v 7) (hZ : t.flag zBit = (v == 0)) :
    SignAndZeroOf v t :=
  ⟨hN.trans (bitOf_seven v), hZ⟩

theorem setNZ_signAndZeroOf (s : State) (v : Byte) : SignAndZeroOf v (s.setNZ v) :=
  signAndZeroOf_of_flags (by simp [nBit, zBit]) (by simp)

theorem setNCZ_signAndZeroOf (s : State) (t : BitVec 9) : SignAndZeroOf (low8 t) (s.setNCZ t) :=
  signAndZeroOf_of_flags (by simp [nBit, zBit, cBit, bitOf_low8_seven]) (by simp)

theorem setNCZ_carry (s : State) (t : BitVec 9) : (s.setNCZ t).flag cBit = decide (256 ≤ t.toNat) := by
  simp [cBit, zBit, carry9_eq_decide]

/-! ## Sums -/

theorem add9_toNat (a b : Byte) (c : Bool) : (add9 a b c).toNat = a.toNat + b.toNat + c.toNat := by
  have := c.toNat_le
  simp only [add9, BitVec.toNat_add, BitVec.toNat_setWidth, BitVec.toNat_ofBool]
  omega

/-- At width 8 the negated operand is a byte, so the sum fits nine bits (R120 (b), D5). -/
theorem subSum_eight_toNat (a b : Byte) (c : Bool) :
    (subSum .eight a b c).toNat = a.toNat + (256 - b.toNat) % 256 + c.toNat := by
  have := c.toNat_le
  simp only [subSum, negAddend, neg8, BitVec.toNat_add, BitVec.toNat_setWidth, BitVec.toNat_ofBool, BitVec.toNat_sub,
    BitVec.ofNat_eq_ofNat, BitVec.toNat_ofNat]
  omega

/-- At width 9 the negated operand has its sign in bit 8, and the sum is cut to nine bits (R120 (b), D5). -/
theorem subSum_nine_toNat (a b : Byte) (c : Bool) :
    (subSum .nine a b c).toNat = (a.toNat + 512 - b.toNat + c.toNat) % 512 := by
  have := c.toNat_le
  simp only [subSum, negAddend, BitVec.toNat_add, BitVec.toNat_setWidth, BitVec.toNat_ofBool, BitVec.toNat_sub,
    BitVec.ofNat_eq_ofNat, BitVec.toNat_ofNat]
  omega

/-- The two widths differ in the carry alone. -/
theorem subSum_toNat_mod (w : NegWidth) (a b : Byte) (c : Bool) :
    (subSum w a b c).toNat % 256 = (a.toNat + 256 - b.toNat + c.toNat) % 256 := by
  cases w with
  | eight => rw [subSum_eight_toNat]; omega
  | nine => rw [subSum_nine_toNat]; omega

/-- The difference less the carry (R120 (a)). -/
theorem sub_sub_carry_toNat (a b : Byte) (c : Bool) :
    (a - b - (BitVec.ofBool c).setWidth 8).toNat = (a.toNat + 512 - b.toNat - c.toNat) % 256 := by
  have := c.toNat_le
  simp only [BitVec.toNat_sub, BitVec.toNat_setWidth, BitVec.toNat_ofBool]
  omega

/-- R0 - Rn is zero exactly for equal operands. -/
theorem low8_subSum_eq_zero (w : NegWidth) (a b : Byte) : low8 (subSum w a b false) = 0 ↔ a = b := by
  rw [← BitVec.toNat_inj, ← BitVec.toNat_inj, low8_toNat, subSum_toNat_mod]
  simp only [Bool.toNat_false, BitVec.ofNat_eq_ofNat, BitVec.toNat_ofNat]
  omega

theorem storeSum_sumWritten (n : Reg) (t : BitVec 9) (s : State) : SumWritten n t.toNat (storeSum n t s) := by
  have hreg : (storeSum n t s).reg n = low8 t := by simp [storeSum]
  refine ⟨?_, setNCZ_carry (s.setReg n (low8 t)) t, ?_⟩
  · rw [hreg, low8_toNat]
  · rw [hreg]
    exact setNCZ_signAndZeroOf (s.setReg n (low8 t)) t

/-- An instruction that stores a 9-bit sum writes its register and N, C, Z, and no more. -/
theorem nextWith_storeSum {i : Instr} {s : State} {n : Reg} {t : BitVec 9} {sum : Nat}
    (hexec : exec i s = .next (storeSum n t s)) (hsum : t.toNat = sum) :
    NextWith (exec i s) fun u =>
      SumWritten n sum u ∧ MovedOn 1 s u ∧ OnlyRegsAndFlags [n] [nBit, cBit, zBit] s u :=
  ⟨_, hexec, hsum ▸ storeSum_sumWritten n t s, rfl,
    (Within.storeSum .refl (by simp) (by simp) (by simp) (by simp)).onlyRegsAndFlags⟩

/-! ## Stored bytes, and the bits of PSR -/

/-- An instruction that stores a byte writes its register and N, Z, and no more. -/
theorem nextWith_storeByte {i : Instr} {s : State} {n : Reg} {v : Byte} (hexec : exec i s = .next (storeByte n v s)) :
    NextWith (exec i s) fun u =>
      u.reg n = v ∧ SignAndZeroOf v u ∧ MovedOn 1 s u ∧ OnlyRegsAndFlags [n] [nBit, zBit] s u :=
  ⟨_, hexec, by simp [storeByte], setNZ_signAndZeroOf (s.setReg n v) v, rfl,
    (Within.storeByte .refl (by simp) (by simp) (by simp)).onlyRegsAndFlags⟩

/-- STP and CLP write their bit of PSR, and no more. -/
theorem nextWith_writePsrBit {i : Instr} {s : State} {n : BitIndex} {b : Bool}
    (hexec : exec i s = .next (writePsrBit n b s)) :
    NextWith (exec i s) fun t => t.flag n = b ∧ MovedOn 1 s t ∧ OnlyRegsAndFlags [] [n] s t :=
  ⟨_, hexec, by simp [writePsrBit], rfl, (Within.refl.setFlag (by simp)).advance.onlyRegsAndFlags⟩

/-! ## Rotations

ROL turns the nine bits of C and Rn to the left by one place, and ROR by eight, so nine of either turn them by whole
turns. -/

theorem rotateLeft_toNat (v : Byte) (c : Bool) : (rotateLeft v c).toNat = (2 * v.toNat + c.toNat) % 256 := by
  have := c.toNat_le
  rw [rotateLeft, append_toNat_eq]
  simp only [BitVec.extractLsb'_toNat, BitVec.toNat_ofBool, Nat.shiftRight_zero]
  omega

theorem rotateRight_toNat (v : Byte) (c : Bool) : (rotateRight v c).toNat = v.toNat / 2 + 128 * c.toNat := by
  rw [rotateRight, append_toNat_eq]
  simp only [BitVec.extractLsb'_toNat, BitVec.toNat_ofBool, Nat.shiftRight_eq_div_pow]
  omega

/-- The carry and a byte as one word of nine bits, the carry on top (R117, R118). -/
def nineBits (c : Bool) (v : Byte) : BitVec 9 := BitVec.ofBool c ++ v

theorem getLsbD_nineBits (c : Bool) (v : Byte) (k : Nat) :
    (nineBits c v).getLsbD k = if k < 8 then v.getLsbD k else (decide (k - 8 = 0) && c) := by
  rw [nineBits, BitVec.getLsbD_append, BitVec.getLsbD_ofBool]

@[simp] theorem carry9_nineBits (c : Bool) (v : Byte) : carry9 (nineBits c v) = c := by
  simp only [carry9, getLsbD_nineBits]
  rfl

@[simp] theorem low8_nineBits (c : Bool) (v : Byte) : low8 (nineBits c v) = v :=
  BitVec.eq_of_toNat_eq (by rw [low8_toNat, nineBits, append_toNat_eq]; omega)

theorem getLsbD_rotateLeft (v : Byte) (c : Bool) (k : Nat) :
    (rotateLeft v c).getLsbD k = if k < 1 then decide (k = 0) && c else decide (k - 1 < 7) && v.getLsbD (k - 1) := by
  rw [rotateLeft, BitVec.getLsbD_append, BitVec.getLsbD_ofBool, BitVec.getLsbD_extractLsb', Nat.zero_add]

theorem getLsbD_rotateRight (v : Byte) (c : Bool) (k : Nat) :
    (rotateRight v c).getLsbD k = if k < 7 then decide (k < 7) && v.getLsbD (1 + k) else decide (k - 7 = 0) && c := by
  rw [rotateRight, BitVec.getLsbD_append, BitVec.getLsbD_ofBool, BitVec.getLsbD_extractLsb']

theorem nineBits_rotateLeft (v : Byte) (c : Bool) :
    nineBits (bitOf v 7) (rotateLeft v c) = (nineBits c v).rotateLeft 1 := by
  apply BitVec.eq_of_getLsbD_eq
  intro k hk
  simp only [BitVec.getLsbD_rotateLeft, getLsbD_nineBits, getLsbD_rotateLeft, bitOf]
  interval_cases k <;> rfl

/-- A rotation to the right is eight to the left. -/
theorem nineBits_rotateRight (v : Byte) (c : Bool) :
    nineBits (bitOf v 0) (rotateRight v c) = (nineBits c v).rotateLeft 8 := by
  apply BitVec.eq_of_getLsbD_eq
  intro k hk
  simp only [BitVec.getLsbD_rotateLeft, getLsbD_nineBits, getLsbD_rotateRight, bitOf]
  interval_cases k <;> rfl

theorem rotateLeft_add_places {w : Nat} (x : BitVec w) (a b : Nat) :
    (x.rotateLeft a).rotateLeft b = x.rotateLeft (a + b) := by
  apply BitVec.eq_of_getMsbD_eq
  intro k hk
  have hmod : (b + k) % w < w := Nat.mod_lt _ (by omega)
  simp only [BitVec.getMsbD_rotateLeft, hk, hmod, decide_true, Bool.true_and, Nat.add_mod_mod, Nat.add_assoc]

theorem rotateLeft_whole_turns (x : BitVec 9) (k : Nat) : x.rotateLeft (9 * k) = x := by
  apply BitVec.eq_of_getMsbD_eq
  intro i hi
  simp [BitVec.getMsbD_rotateLeft, Nat.mod_eq_of_lt hi, hi]

/-- An instruction that stores a rotated byte writes its register and N, C, Z, and no more. -/
theorem nextWith_rotation {i : Instr} {s : State} {n : Reg} {v : Byte} {c : Bool}
    (hexec : exec i s = .next (storeByte n v (s.setFlag cBit c))) :
    NextWith (exec i s) fun t =>
      t.reg n = v ∧ t.flag cBit = c ∧ SignAndZeroOf v t ∧ MovedOn 1 s t ∧
        OnlyRegsAndFlags [n] [nBit, cBit, zBit] s t :=
  ⟨_, hexec, by simp [storeByte], by simp [storeByte, cBit, nBit, zBit],
    setNZ_signAndZeroOf ((s.setFlag cBit c).setReg n v) v, rfl,
    (Within.storeByte (.setFlag .refl (by simp)) (by simp) (by simp) (by simp)).onlyRegsAndFlags⟩

/-! ### Rotations one after another -/

theorem OnlyRegsAndFlags.refl {regs : List Reg} {flags : List BitIndex} (s : State) : OnlyRegsAndFlags regs flags s s :=
  Within.onlyRegsAndFlags .refl

theorem OnlyRegsAndFlags.trans {regs : List Reg} {flags : List BitIndex} {s t u : State}
    (hst : OnlyRegsAndFlags regs flags s t) (htu : OnlyRegsAndFlags regs flags t u) :
    OnlyRegsAndFlags regs flags s u := by
  obtain ⟨⟨hregs, hflags, hmem, himr, hcfg, hreq⟩, hsp, hfree⟩ := hst
  obtain ⟨⟨hregs', hflags', hmem', himr', hcfg', hreq'⟩, hsp', hfree'⟩ := htu
  refine ⟨⟨fun n hn => (hregs' n hn).trans (hregs n hn), fun n hn => (hflags' n hn).trans (hflags n hn), fun a ha => ?_,
    himr'.trans himr, hcfg'.trans hcfg, hreq'.trans hreq⟩, hsp'.trans hsp, hfree'.trans hfree⟩
  exact ⟨(hmem' a ha).1.trans (hmem a ha).1, (hmem' a ha).2.trans (hmem a ha).2⟩

theorem repeatExec_succ {k : Nat} {i : Instr} {s t : State} (h : exec i s = .next t) :
    repeatExec (k + 1) i s = repeatExec k i t := by
  simp only [repeatExec, h]

theorem Regs.ext_get {x y : Regs} (h : ∀ n, x.get n = y.get n) : x = y := by
  cases x
  cases y
  rw [Regs.mk.injEq]
  exact ⟨h .r0, h .r1, h .r2, h .r3, h .r4, h .r5, h .r6, h .r7⟩

/-- From `s` to `t`, in `k` instructions of one byte, C and Rn were rotated to the left by `places`, and nothing else
changed but N and Z. -/
structure Rotated (n : Reg) (places k : Nat) (s t : State) : Prop where
  bits : nineBits (t.flag cBit) (t.reg n) = (nineBits (s.flag cBit) (s.reg n)).rotateLeft places
  pc : t.pc = s.pc + BitVec.ofNat 16 k
  others : OnlyRegsAndFlags [n] [nBit, cBit, zBit] s t

namespace Rotated

variable {n : Reg} {p q j k : Nat} {s t u : State}

theorem refl : Rotated n 0 0 s s :=
  ⟨(rotateLeft_whole_turns _ 0).symm, (BitVec.add_zero s.pc).symm, .refl s⟩

theorem trans (hst : Rotated n p j s t) (htu : Rotated n q k t u) : Rotated n (p + q) (j + k) s u where
  bits := by rw [htu.bits, hst.bits, rotateLeft_add_places]
  pc := by rw [htu.pc, hst.pc, BitVec.add_assoc, ← BitVec.ofNat_add]
  others := hst.others.trans htu.others

/-- After whole turns of the nine bits, C and every register are as before. -/
theorem restores (h : Rotated n (9 * p) k s t) :
    t.regs = s.regs ∧ t.flag cBit = s.flag cBit ∧ OnlyRegsAndFlags [] [nBit, zBit] s t := by
  have hbits := h.bits.trans (rotateLeft_whole_turns _ p)
  have hcarry : t.flag cBit = s.flag cBit := by simpa using congrArg carry9 hbits
  have hreg : t.reg n = s.reg n := by simpa using congrArg low8 hbits
  obtain ⟨⟨hregs, hflags, hframe⟩, hrest⟩ := h.others
  have hall : ∀ m, t.reg m = s.reg m := fun m =>
    if e : m = n then e ▸ hreg else hregs m (by simpa using e)
  refine ⟨Regs.ext_get hall, hcarry, ⟨fun m _ => hall m, fun m hm => ?_, hframe⟩, hrest⟩
  by_cases e : m = cBit
  · exact e ▸ hcarry
  · exact hflags m (by simpa [e] using hm)

end Rotated

theorem rol_rotated (n : Reg) (s : State) : NextWith (exec (.rol n) s) (Rotated n 1 1 s) := by
  refine (nextWith_rotation rfl).mono fun t ⟨hreg, hcarry, _, hpc, hothers⟩ => ⟨?_, hpc, hothers⟩
  rw [hreg, hcarry, nineBits_rotateLeft]

theorem ror_rotated (n : Reg) (s : State) : NextWith (exec (.ror n) s) (Rotated n 8 1 s) := by
  refine (nextWith_rotation rfl).mono fun t ⟨hreg, hcarry, _, hpc, hothers⟩ => ⟨?_, hpc, hothers⟩
  rw [hreg, hcarry, nineBits_rotateRight]

theorem repeatExec_rotated {i : Instr} {n : Reg} {p : Nat} (h : ∀ s, NextWith (exec i s) (Rotated n p 1 s)) (k : Nat)
    (s : State) : NextWith (repeatExec k i s) (Rotated n (k * p) k s) := by
  induction k generalizing s with
  | zero => exact ⟨s, rfl, by simpa using Rotated.refl⟩
  | succ k ih =>
    obtain ⟨t, hexec, hst⟩ := h s
    rw [repeatExec_succ hexec, Nat.succ_mul, Nat.add_comm (k * p), Nat.add_comm k]
    exact (ih t).mono fun u => hst.trans

/-! ## The obligations -/

/-- Settles O26: nine turns of nine bits, by one place each or by eight, are whole turns. -/
theorem nineRotationsRestore : Obligations.NineRotationsRestore := by
  intro n s i hi
  have nine : ∀ p, (∀ s, NextWith (exec i s) (Rotated n p 1 s)) → NextWith (repeatExec 9 i s) fun t =>
      t.regs = s.regs ∧ t.flag cBit = s.flag cBit ∧ t.pc = s.pc + 9 ∧ OnlyRegsAndFlags [] [nBit, zBit] s t :=
    fun p h => (repeatExec_rotated h 9 s).mono fun t ht =>
      let ⟨hregs, hcarry, hothers⟩ := ht.restores
      ⟨hregs, hcarry, ht.pc, hothers⟩
  obtain rfl | rfl := hi
  · exact nine 1 (rol_rotated n)
  · exact nine 8 (ror_rotated n)

/-- Settles O15: INC stores the sum of its register and 1. -/
theorem incIncrementsItsRegister : Obligations.IncIncrementsItsRegister :=
  fun n s => ⟨encodedAs_of_register 0 rfl, rfl, nextWith_storeSum rfl (add9_toNat (s.reg n) 1 false)⟩

/-- Settles O16: ADC and ADD store the sum of R0 and Rn, with and without the carry. -/
theorem addAndAdcWriteTheSum : Obligations.AddAndAdcWriteTheSum :=
  fun n s => ⟨⟨encodedAs_of_register 1 rfl, rfl,
      nextWith_storeSum rfl (add9_toNat (s.reg .r0) (s.reg n) (s.flag cBit))⟩,
    encodedAs_of_register 10 rfl, rfl, nextWith_storeSum rfl (add9_toNat (s.reg .r0) (s.reg n) false)⟩

/-- Settles O17: DEC stores the sum of its register and 255, which needs bit 8 unless the register was 0. -/
theorem decAddsAllOnes : Obligations.DecAddsAllOnes := by
  intro n s
  refine ⟨encodedAs_of_register 8 rfl, rfl, ?_⟩
  have hsum : (add9 (s.reg n) 0xFF false).toNat = (s.reg n).toNat + 255 := add9_toNat _ _ _
  refine (nextWith_storeSum rfl hsum).mono fun t ⟨hwritten, hrest⟩ => ⟨hwritten, ?_, hrest⟩
  obtain ⟨_, hcarry, _⟩ := hwritten
  have hborrow : 256 ≤ (s.reg n).toNat + 255 ↔ s.reg n ≠ 0 := by bv_omega
  rw [hcarry, decide_eq_decide.2 hborrow]

/-- Settles O18: SBC stores the sum of R0, the negated Rn at the core's width, and the carry. -/
theorem sbcSubtractsAndAddsTheCarry : Obligations.SbcSubtractsAndAddsTheCarry := by
  intro n s hcfg
  refine ⟨encodedAs_of_register 9 rfl, rfl, ?_⟩
  have hexec : exec (.sbc n) s = .next (sbcAdded n s) := by simp only [exec, execSbc, hcfg]
  refine (nextWith_storeSum hexec rfl).mono fun t ⟨⟨hreg, hcarry, hsign⟩, hrest⟩ => ⟨?_, ?_, ?_, hsign, hrest⟩
  · rw [hreg, subSum_toNat_mod]
  · intro hwidth
    rw [hcarry, hwidth, subSum_eight_toNat]
  · intro hwidth
    rw [hcarry, hwidth, subSum_nine_toNat]

/-- Settles O19: SBC stores the difference less the carry, and the free value as the new carry. -/
theorem sbcSubtractingTheCarry : Obligations.SbcSubtractingTheCarry := by
  intro n s hcfg
  have hexec : exec (.sbc n) s = .next (sbcSubtracted n s) := by simp only [exec, execSbc, hcfg]
  have hreg : (sbcSubtracted n s).reg .r0 = s.reg .r0 - s.reg n - (BitVec.ofBool (s.flag cBit)).setWidth 8 := by
    simp [sbcSubtracted]
  have hwithin : Within ⟨[.r0], [nBit, cBit, zBit], [], false, false⟩ s (sbcSubtracted n s) :=
    (((Within.refl.setReg (by simp)).setFlag (by simp)).setNZ (by simp) (by simp)).advance
  refine ⟨_, hexec, ?_, ?_, ?_, rfl, hwithin.onlyRegsAndFlags⟩
  · rw [hreg, sub_sub_carry_toNat]
  · simp [sbcSubtracted, cBit, nBit, zBit]
  · rw [hreg]
    exact setNZ_signAndZeroOf _ _

/-- Settles O20: CMP sets N, C and Z as storing R0 - Rn would, and stores nothing. -/
theorem cmpComparesWithoutWriting : Obligations.CmpComparesWithoutWriting := by
  intro n s
  refine ⟨encodedAs_of_register 15 rfl, rfl, _, rfl, ?zero, ?sign, ?carryAtEight, ?carryAtNine, rfl, ?others⟩
  case others => exact (Within.refl.setNCZ (by simp) (by simp) (by simp)).advance.onlyRegsAndFlags
  all_goals simp only [State.flag_advance]
  case zero =>
    rw [(setNCZ_signAndZeroOf s _).2, decide_eq_decide.2 (low8_subSum_eq_zero _ _ _)]
  case sign =>
    rw [(setNCZ_signAndZeroOf s _).1, low8_toNat, subSum_toNat_mod]
    rfl
  case carryAtEight =>
    intro hwidth
    rw [setNCZ_carry, hwidth, subSum_eight_toNat, decide_eq_decide]
    bv_omega
  case carryAtNine =>
    intro hwidth
    rw [setNCZ_carry, hwidth, subSum_nine_toNat, decide_eq_decide]
    bv_omega

/-- Settles O23: OR, AND and XOR store the byte of the bits they join. -/
theorem logicActsBitByBit : Obligations.LogicActsBitByBit := by
  intro n s
  refine ⟨⟨encodedAs_of_register 3 rfl, rfl, (nextWith_storeByte rfl).mono ?_⟩,
    ⟨encodedAs_of_register 4 rfl, rfl, (nextWith_storeByte rfl).mono ?_⟩,
    encodedAs_of_register 5 rfl, rfl, (nextWith_storeByte rfl).mono ?_⟩
  all_goals
    rintro t ⟨hreg, hsign, hrest⟩
    refine ⟨fun k => ?_, hreg ▸ hsign, hrest⟩
    rw [hreg]
  · exact BitVec.getLsbD_or
  · exact BitVec.getLsbD_and
  · exact BitVec.getLsbD_xor

/-- Settles O24: TX0 and T0X store the byte they copy. -/
theorem transfersCopyAndSetNZ : Obligations.TransfersCopyAndSetNZ :=
  fun _ _ => ⟨⟨encodedAs_of_register 2 rfl, rfl, nextWith_storeByte rfl⟩,
    encodedAs_of_register 14 rfl, rfl, nextWith_storeByte rfl⟩

/-- Settles O25: a rotation stores the rotated byte, and the bit that leaves it in C. -/
theorem rotationsGoThroughTheCarry : Obligations.RotationsGoThroughTheCarry := by
  intro n s
  refine ⟨⟨encodedAs_of_register 6 rfl, rfl, (nextWith_rotation rfl).mono ?_⟩,
    encodedAs_of_register 7 rfl, rfl, (nextWith_rotation rfl).mono ?_⟩
  all_goals
    rintro t ⟨hreg, hcarry, hsign, hrest⟩
    refine ⟨?_, ?_, hreg ▸ hsign, hrest⟩
  · rw [hreg, rotateLeft_toNat]
  · rw [hcarry, bitOf_seven]
  · rw [hreg, rotateRight_toNat]
  · rw [hcarry, bitOf_zero]

/-- Settles O27: STP and CLP write their bit of PSR, and nothing else. -/
theorem stpAndClpWriteOneBit : Obligations.StpAndClpWriteOneBit :=
  fun n s => ⟨⟨encodedAs_of_index 11 rfl, rfl, nextWith_writePsrBit rfl⟩,
    encodedAs_of_index 13 rfl, rfl, nextWith_writePsrBit rfl⟩

/-- Settles O28: BTT writes the two flags, Z first, and leaves R0 as it was. -/
theorem bttTestsOneBitOfR0 : Obligations.BttTestsOneBitOfR0 :=
  fun n s => ⟨encodedAs_of_index 12 rfl, rfl, _, rfl, by simp [nBit, zBit], by simp, rfl,
    ((Within.refl.setFlag (by simp)).setFlag (by simp)).advance.onlyRegsAndFlags⟩

end Sys2Proof.Machine
end

section
/-! PROOFS. Pushes and pops, subroutine calls, and relative branches (41_stack_and_branch.md). -/

namespace Sys2Proof.Machine

/-! ## Encodings with operand bytes -/

/-- A hardware instruction with an operand in the low three bits of its first byte, and with bytes after it (R81). -/
theorem encodedAs_of_field_append {i : Instr} {o : BitVec 5} {f : BitVec 3} {rest : List Byte}
    (hwf : i.wellFormed = true) (hencode : encode i = firstByte o f :: rest) :
    EncodedAs i ((firstByte o 0 + f.setWidth 8) :: rest) := by
  rw [← firstByte_eq_add, ← hencode]
  exact ⟨rfl, by simpa using decode_encode_append hwf []⟩

/-! ## Memory accesses that answer -/

theorem stopOf_eq_none {α : Type} {x : Except Halt α} : stopOf x = none ↔ ∃ a, x = .ok a := by
  cases x <;> simp [stopOf]

/-- A read that can be made gives its byte, and counts the free values it used. -/
theorem readByte_of_readsAs {a : Addr} {v : Byte} {s : State} {used : Nat}
    (h : ReadsAs s (s.byteAt a) s.freeCount a v used) : readByte a s = .ok (v, { s with freeCount := used }) := by
  obtain ⟨hk, hb, rfl⟩ | ⟨hk, rfl, rfl⟩ := h
  · exact readByte_of_held hk hb
  · exact readByte_eq_ok.2 (.inr ⟨hk, rfl, rfl⟩)

/-- A 16-bit value whose two bytes lie in memory is read whole. -/
theorem readWord_of_held {a : Addr} {lo hi : Byte} {s : State} (hklo : holdsBytes (s.kindAt a) = true)
    (hlo : s.byteAt a = some lo) (hkhi : holdsBytes (s.kindAt (a + 1)) = true) (hhi : s.byteAt (a + 1) = some hi) :
    readWord a s = .ok (word16 hi lo, s) :=
  readWord_eq_ok.2 ⟨lo, hi, s, readByte_of_held hklo hlo, readByte_of_held hkhi hhi, rfl⟩

/-- A push writes its byte below the stack. -/
theorem push_wrote {v : Byte} {s t : State} (h : push v s = .ok t) : Wrote (s.sp - 1) v s t :=
  ⟨push_byteAt h _, by simp [writeByte_modified (push_eq_ok.1 h)]⟩

/-- What memory holds above the pushed byte is as before. -/
theorem push_byteAt_above {v : Byte} {s t : State} (h : push v s = .ok t) : t.byteAt (t.sp + 1) = s.byteAt s.sp := by
  have habove : t.sp + 1 = s.sp := by rw [push_sp h]; bv_omega
  have hne : s.sp ≠ s.sp - 1 := by bv_omega
  rw [habove, push_byteAt h]
  exact if_neg fun ⟨heq, _⟩ => hne heq

theorem pushWord_sp {v : Addr} {s t : State} (h : pushWord v s = .ok t) : t.sp = s.sp - 2 := by
  have hsp : t.sp = s.sp - 1 - 1 := by rw [pushWord_frame h]
  bv_omega

/-- A 16-bit value pushed to plain memory is read back at STACK, wherever execution goes on. -/
theorem pushWord_of_plain {s : State} (v : Addr) (hkhi : s.kindAt (s.sp - 1) = .plain)
    (hklo : s.kindAt (s.sp - 2) = .plain) :
    ∃ t, pushWord v s = .ok t ∧ ∀ p, readWord t.sp (t.setPc p) = .ok (v, t.setPc p) := by
  obtain ⟨s1, hhigh, hheld1, hbyte1⟩ := push_of_plain (hi8 v) hkhi
  have hbelow : s1.sp - 1 = s.sp - 2 := by rw [push_sp hhigh]; bv_omega
  have hk1 : s1.kindAt (s1.sp - 1) = .plain := by rw [hbelow, State.kindAt_congr (push_cfg hhigh), hklo]
  obtain ⟨t, hlow, hheld, hbyte⟩ := push_of_plain (lo8 v) hk1
  have habove : t.sp + 1 = s1.sp := by rw [push_sp hlow]; bv_omega
  have hheldAbove : holdsBytes (t.kindAt (t.sp + 1)) = true := by
    rw [habove, State.kindAt_congr (push_cfg hlow), hheld1]
  have hbyteAbove : t.byteAt (t.sp + 1) = some (hi8 v) := (push_byteAt_above hlow).trans hbyte1
  refine ⟨t, pushWord_eq_ok.2 ⟨s1, hhigh, hlow⟩, fun p => ?_⟩
  rw [readWord_of_held (s := t.setPc p) hheld hbyte hheldAbove hbyteAbove, word16_hi8_lo8]

/-! ## Relative branches -/

/-- A branch writes the program counter, and nothing else. -/
theorem branchIf_eq_setPc (taken : Bool) (o : Byte) (s : State) :
    branchIf taken o s = s.setPc (if taken = true then s.pc + o.signExtend 16 else s.pc + 2) := by
  cases taken <;> rfl

theorem nextWith_branchIf {i : Instr} {s : State} {taken : Bool} {o : Byte}
    (hexec : exec i s = .next (branchIf taken o s)) :
    NextWith (exec i s) fun t =>
      t.pc = (if taken = true then s.pc + o.signExtend 16 else s.pc + 2) ∧ OnlyRegsAndFlags [] [] s t := by
  rw [branchIf_eq_setPc] at hexec
  exact ⟨_, hexec, rfl, Within.refl.setPc.onlyRegsAndFlags⟩

/-! ## DBNZ -/

theorem decremented_sumWritten (n : Reg) (s : State) : SumWritten n ((s.reg n).toNat + 255) (decremented n s) := by
  have hsum : (add9 (s.reg n) 0xFF false).toNat = (s.reg n).toNat + 255 := add9_toNat _ _ _
  exact hsum ▸ storeSum_sumWritten n (add9 (s.reg n) 0xFF false) s

/-- The decremented register is zero exactly if it was 1. -/
theorem decremented_zero (n : Reg) (s : State) : (decremented n s).flag zBit = decide (s.reg n = 1) := by
  obtain ⟨hreg, _, _, hzero⟩ := decremented_sumWritten n s
  rw [hzero, decide_eq_decide]
  bv_omega

/-! ## The obligations -/

/-- Settles O38: the return address lies at STACK after the call, where RTS reads it. -/
theorem rtsAfterJsrResumes : Obligations.RtsAfterJsrResumes := by
  intro addr s hkhi hklo
  obtain ⟨s1, hpush, hread⟩ := pushWord_of_plain (s.pc + 3) hkhi hklo
  refine ⟨_, execJsr_eq_next.2 ⟨s1, hpush, rfl⟩, rfl, _, execRts_eq_next.2 ⟨_, _, hread addr, rfl⟩, rfl, ?_, ?_⟩
  · have hsp : s1.sp = s.sp - 2 := pushWord_sp hpush
    simp only [State.setPc_sp, State.setSp_sp]
    bv_omega
  · have called : Within ⟨[], [], [s.sp - 1, s.sp - 2], true, false⟩ s (s1.setPc addr) :=
      (Within.refl.pushWord hpush rfl (by simp) (by simp)).setPc
    exact (called.readWord (hread addr)).setSp.setPc.frame rfl

/-- Settles O29: the push answers where its address can be written, and writes what lies below the stack. -/
theorem pshStoresBelowTheStack : Obligations.PshStoresBelowTheStack := by
  intro n s hw
  obtain ⟨s1, hpush⟩ := stopOf_eq_none.1 ((stopOf_push (s.reg n) s).trans hw)
  have hsp : s1.sp = s.sp - 1 := push_sp hpush
  have hpc : s1.pc = s.pc := by rw [push_frame hpush]
  have hfree : s1.freeCount = s.freeCount := by rw [push_frame hpush]
  have hwrote : Wrote (s.sp - 1) (s.reg n) s s1 := push_wrote hpush
  have pushed : Within ⟨[], [], [s.sp - 1], true, false⟩ s s1 :=
    Within.refl.push hpush rfl (List.mem_singleton_self _)
  exact ⟨encodedAs_of_register 16 rfl, rfl, _, execPsh_eq_next.2 ⟨s1, hpush, rfl⟩, hsp, hwrote,
    congrArg (· + 1) hpc, pushed.advance.frame rfl, hfree⟩

/-- Settles O30: the byte read at STACK goes to the register, and STACK moves up by one. -/
theorem popReadsAtTheStack : Obligations.PopReadsAtTheStack := by
  intro n s v used hreads
  have hread := readByte_of_readsAs hreads
  have popped : Within ⟨[n], [], [], true, false⟩ s { s with freeCount := used } := Within.refl.readByte hread
  exact ⟨encodedAs_of_register 17 rfl, rfl, _, execPop_eq_next.2 ⟨v, _, hread, rfl⟩, by simp, rfl, rfl,
    (popped.setReg (List.mem_singleton_self n)).setSp.advance.frame rfl, rfl⟩

/-- Settles O33: BR0 branches on the complement of the tested bit, and BR1 on the bit. -/
theorem branchesTestOneBit : Obligations.BranchesTestOneBit := by
  intro n o s
  refine ⟨⟨setWidth_indexBits n ▸ encodedAs_of_field_append (o := 18) rfl rfl, rfl, ?_⟩,
    setWidth_indexBits n ▸ encodedAs_of_field_append (o := 19) rfl rfl, rfl, nextWith_branchIf rfl⟩
  refine (nextWith_branchIf rfl).mono fun t ⟨hpc, hothers⟩ => ⟨?_, hothers⟩
  simpa only [Bool.not_eq_true'] using hpc

/-- Settles O34: DBNZ writes the sum DEC writes, and branches unless the Z of that sum is set. -/
theorem dbnzDecrementsAndBranches : Obligations.DbnzDecrementsAndBranches := by
  intro n o s
  have hexec : exec (.dbnz n o) s = .next _ := congrArg Host.Outcome.next (branchIf_eq_setPc _ o (decremented n s))
  refine ⟨setWidth_regBits n ▸ encodedAs_of_field_append (o := 20) rfl rfl, rfl, _, hexec,
    decremented_sumWritten n s, ?pc, ?others⟩
  case pc =>
    have hsite : (decremented n s).pc = s.pc := rfl
    simp only [State.setPc_pc, decremented_zero, hsite, Bool.not_eq_true', decide_eq_false_iff_not, ite_not]
  case others =>
    have written : Within ⟨[n], [nBit, cBit, zBit], [], false, false⟩ s (decremented n s) :=
      (Within.refl.setReg (by simp)).setNCZ (by simp) (by simp) (by simp)
    exact written.setPc.onlyRegsAndFlags

end Sys2Proof.Machine
end

section
/-! PROOFS. The product, jumps and calls, interrupts and the mask register (42_int_mul_and_control.md). -/

namespace Sys2Proof.Machine

/-! ## Encodings -/

/-- A hardware instruction is encoded as its bytes, which alone are read as it (R81). -/
theorem encodedAs_of_encode {i : Instr} {bytes : List Byte} (hencode : encode i = bytes)
    (hwf : i.wellFormed = true := by rfl) : EncodedAs i bytes := by
  subst hencode
  exact ⟨rfl, by simpa using decode_encode_append hwf []⟩

/-! ## Frames one after another -/

theorem Frame.cfg_eq {regs : List Reg} {flags : List BitIndex} {addrs : List Addr} {s t : State}
    (h : Frame regs flags addrs s t) : t.cfg = s.cfg :=
  let ⟨_, _, _, _, hcfg, _⟩ := h
  hcfg

theorem Frame.trans {regs regs' : List Reg} {flags flags' : List BitIndex} {addrs addrs' : List Addr} {s t u : State}
    (hst : Frame regs flags addrs s t) (htu : Frame regs' flags' addrs' t u) :
    Frame (regs ++ regs') (flags ++ flags') (addrs ++ addrs') s u := by
  obtain ⟨hregs, hflags, hmem, himr, hcfg, hreq⟩ := hst
  obtain ⟨hregs', hflags', hmem', himr', hcfg', hreq'⟩ := htu
  refine ⟨fun n hn => ?_, fun n hn => ?_, fun a ha => ?_, himr'.trans himr, hcfg'.trans hcfg, hreq'.trans hreq⟩
  · obtain ⟨hs, ht⟩ := not_or.1 (mt List.mem_append.2 hn)
    exact (hregs' n ht).trans (hregs n hs)
  · obtain ⟨hs, ht⟩ := not_or.1 (mt List.mem_append.2 hn)
    exact (hflags' n ht).trans (hflags n hs)
  · obtain ⟨hs, ht⟩ := not_or.1 (mt List.mem_append.2 ha)
    exact ⟨(hmem' a ht).1.trans (hmem a hs).1, (hmem' a ht).2.trans (hmem a hs).2⟩

/-- Where PSR is as before, every flag is, whatever was written on the way. -/
theorem Frame.of_psr_eq {regs : List Reg} {flags : List BitIndex} {addrs : List Addr} {s t : State}
    (h : Frame regs flags addrs s t) (hpsr : t.psr = s.psr) : Frame regs [] addrs s t := by
  obtain ⟨hregs, _, hrest⟩ := h
  exact ⟨hregs, fun n _ => congrArg (bitOf · n) hpsr, hrest⟩

/-! ## Reads in a row -/

theorem readsAs_congr {s t : State} (hcfg : t.cfg = s.cfg) {held : Option Byte} {used used' : Nat} {a : Addr}
    {v : Byte} :
    ReadsAs t held used a v used' ↔ ReadsAs s held used a v used' := by
  simp only [ReadsAs, State.kindAt_congr hcfg]

/-- Two reads that can be made, the low byte's first, give a 16-bit value (R65, D20). -/
theorem readWord_of_readsAs {a : Addr} {lo hi : Byte} {s : State} {k used : Nat}
    (hlo : ReadsAs s (s.byteAt a) s.freeCount a lo k) (hhi : ReadsAs s (s.byteAt (a + 1)) k (a + 1) hi used) :
    readWord a s = .ok (word16 hi lo, { s with freeCount := used }) := by
  have hhigh : readByte (a + 1) { s with freeCount := k } = .ok (hi, { s with freeCount := used }) :=
    readByte_of_readsAs (s := { s with freeCount := k }) hhi
  exact readWord_eq_ok.2 ⟨lo, hi, _, readByte_of_readsAs hlo, hhigh, rfl⟩

/-! ## Pushes in a row

Each byte pushed is seen from before the first push and after the last one: the other pushes are to other addresses. -/

theorem Wrote.of_write_then_kept {a : Addr} {v : Byte} {addrs : List Addr} {s t u : State} (h : Wrote a v s t)
    (hkeeps : KeepsMemory addrs t u) (ha : a ∉ addrs) : Wrote a v s u := by
  obtain ⟨hbyte, hmarked⟩ := h
  obtain ⟨hbyte', hmarked'⟩ := hkeeps a ha
  exact ⟨hbyte'.trans hbyte, hmarked'.trans hmarked⟩

theorem Wrote.of_kept_then_write {a : Addr} {v : Byte} {addrs : List Addr} {s t u : State}
    (hkeeps : KeepsMemory addrs s t) (hcfg : t.cfg = s.cfg) (ha : a ∉ addrs) (h : Wrote a v t u) : Wrote a v s u := by
  obtain ⟨hbyte, hmarked⟩ := h
  refine ⟨hbyte.trans ?_, hmarked⟩
  simp only [heldAfter, State.kindAt_congr hcfg, (hkeeps a ha).1]

/-- A byte written to plain memory is what the next read there gives. -/
theorem Wrote.readsAs_of_plain {a : Addr} {v : Byte} {s t : State} (h : Wrote a v s t) (hcfg : t.cfg = s.cfg)
    (hk : s.kindAt a = .plain) (used : Nat) : ReadsAs t (t.byteAt a) used a v used := by
  have hbyte : t.byteAt a = some v := h.1.trans (if_pos ⟨rfl, hk⟩)
  have hholds : holdsBytes (t.kindAt a) = true := by rw [State.kindAt_congr hcfg, hk]; rfl
  exact .inl ⟨hholds, hbyte, rfl⟩

theorem push_keepsMemory {v : Byte} {s t : State} (h : push v s = .ok t) : KeepsMemory [s.sp - 1] s t :=
  have pushed : Within ⟨[], [], [s.sp - 1], true, false⟩ s t := Within.refl.push h rfl (List.mem_singleton_self _)
  pushed.memory

theorem pushWord_keepsMemory {v : Addr} {s t : State} (h : pushWord v s = .ok t) :
    KeepsMemory [s.sp - 1, s.sp - 2] s t :=
  have pushed : Within ⟨[], [], [s.sp - 1, s.sp - 2], true, false⟩ s t :=
    Within.refl.pushWord h rfl (by simp) (by simp)
  pushed.memory

/-- A 16-bit push leaves the high byte above the low one (R51). -/
theorem pushWord_wrote {v : Addr} {s t : State} (h : pushWord v s = .ok t) :
    Wrote (s.sp - 1) (hi8 v) s t ∧ Wrote (s.sp - 2) (lo8 v) s t := by
  obtain ⟨s1, hhigh, hlow⟩ := pushWord_eq_ok.1 h
  have hbelow : s1.sp - 1 = s.sp - 2 := by rw [push_sp hhigh]; bv_omega
  have hkeeps := push_keepsMemory hlow
  have hwrote := push_wrote hlow
  rw [hbelow] at hkeeps hwrote
  exact ⟨(push_wrote hhigh).of_write_then_kept hkeeps (by simp),
    hwrote.of_kept_then_write (push_keepsMemory hhigh) (push_cfg hhigh) (by simp)⟩

/-! ## Taking an interrupt -/

/-- R252: the NMI is always accepted, another interrupt if it is enabled and its mask bit is 1. -/
theorem State.accepts_iff {s : State} {n : BitIndex} :
    s.accepts n = true ↔ n = 0 ∨ (s.flag iBit = true ∧ bitOf s.imr n = true) := by
  simp only [State.accepts, Bool.or_eq_true, beq_iff_eq, Bool.and_eq_true]

/-- PSR as it was lies above the return address after the three pushes of an entry. -/
theorem entry_pushes_wrote {ret : Addr} {s s1 s2 : State} (hpsr : push s.psr s = .ok s1)
    (hret : pushWord ret (s1.setFlag iBit false) = .ok s2) :
    Wrote (s.sp - 1) s.psr s s2 ∧ Wrote (s.sp - 2) (hi8 ret) s s2 ∧ Wrote (s.sp - 3) (lo8 ret) s s2 := by
  obtain ⟨hcfg, hhi, hlo⟩ := entry_push_psr hpsr
  have hwrotePsr : Wrote (s.sp - 1) s.psr s s1 := push_wrote hpsr
  have hsaved : KeepsMemory [s.sp - 1] s s1 := push_keepsMemory hpsr
  have hkeeps := pushWord_keepsMemory hret
  obtain ⟨hwroteHi, hwroteLo⟩ := pushWord_wrote hret
  rw [hhi] at hkeeps hwroteHi
  rw [hlo] at hkeeps hwroteLo
  exact ⟨hwrotePsr.of_write_then_kept (t := s1.setFlag iBit false) hkeeps (by simp),
    .of_kept_then_write hsaved hcfg (by simp) hwroteHi, .of_kept_then_write hsaved hcfg (by simp) hwroteLo⟩

/-- The pushes of an entry answer where their addresses can be written. -/
theorem entry_pushes_answer {s : State} (ret : Addr) (hw1 : Writable s (s.sp - 1)) (hw2 : Writable s (s.sp - 2))
    (hw3 : Writable s (s.sp - 3)) :
    ∃ s1 s2, push s.psr s = .ok s1 ∧ pushWord ret (s1.setFlag iBit false) = .ok s2 := by
  obtain ⟨s1, hpsr⟩ := stopOf_eq_none.1 ((stopOf_push s.psr s).trans hw1)
  obtain ⟨hcfg, hhi, hlo⟩ := entry_push_psr hpsr
  have hstack : stopOf (pushWord ret (s1.setFlag iBit false)) = none := by
    rw [stopOf_pushWord, hhi, hlo, writeStop_congr hcfg, writeStop_congr hcfg]
    exact Option.or_eq_none_iff.2 ⟨hw2, hw3⟩
  obtain ⟨s2, hret⟩ := stopOf_eq_none.1 hstack
  exact ⟨s1, s2, hpsr, hret⟩

/-- An interrupt entry that can finish does, by the sequence of R253; its vector is read after the pushes. -/
theorem takeInterrupt_enters {n : BitIndex} {ret : Addr} {lo hi : Byte} {used : Nat} {s : State}
    (h : EntryPossible s n ret lo hi used) : ∃ t, takeInterrupt n ret s = .ok t ∧ Entered ret lo hi used s t := by
  obtain ⟨hw1, hw2, hw3, k, hreadLo, hreadHi⟩ := h
  obtain ⟨s1, s2, hpsr, hret⟩ := entry_pushes_answer ret hw1 hw2 hw3
  obtain ⟨hcfg, hmem⟩ := entry_pushes hpsr hret
  have hvec : s2.vectorAddr n = s.vectorAddr n := by simp only [State.vectorAddr, hcfg]
  have hfree : s2.freeCount = s.freeCount := by rw [pushWord_frame hret, push_frame hpsr]; rfl
  have hhandler : readWord (s2.vectorAddr n) s2 = .ok (word16 hi lo, { s2 with freeCount := used }) := by
    refine readWord_of_readsAs (k := k) ?_ ?_ <;> rw [readsAs_congr hcfg, hmem, hvec]
    · rwa [hfree]
    · exact hreadHi
  have hentry : takeInterrupt n ret s = .ok _ := takeInterrupt_eq_ok.2 ⟨s1, s2, _, _, hpsr, hret, hhandler, rfl⟩
  obtain ⟨hwrotePsr, hwroteHi, hwroteLo⟩ := entry_pushes_wrote hpsr hret
  refine ⟨_, hentry, rfl, ?sp, ?flag, hwrotePsr, hwroteHi, hwroteLo, (takeInterrupt_within hentry).frame rfl, rfl⟩
  case sp =>
    have hsp := congrArg State.sp (takeInterrupt_frame hentry)
    rw [hsp]
    bv_omega
  case flag =>
    have hflags := congrArg (State.flag · iBit) (takeInterrupt_frame hentry)
    exact hflags.trans ((bitOf_withBit s.psr iBit iBit false).trans (if_pos rfl))

/-! ## The product -/

/-- The product of two bytes fits 16 bits (R161). -/
theorem product16_toNat (a b : Byte) : (product16 a b).toNat = a.toNat * b.toNat := by
  have hfits : a.toNat * b.toNat < 2 ^ 16 :=
    Nat.lt_of_lt_of_eq (Nat.mul_lt_mul'' a.isLt b.isLt) rfl
  have hwide : ∀ v : Byte, (zeroExtend16 v).toNat = v.toNat := fun v =>
    BitVec.toNat_setWidth_of_le (by decide)
  rw [product16, BitVec.toNat_mul, hwide, hwide, Nat.mod_eq_of_lt hfits]

theorem State.pair_setPair (s : State) (e : Pair) (v : Addr) : (s.setPair e v).pair e = v := by
  have hne : evenReg e ≠ oddReg e := by cases e <;> decide
  simp [State.pair, hne]

/-! ## The mask register -/

/-- A written mask register is the byte with bit 0 forced to 1 (R26, R169). -/
theorem bitOf_or_one (v : Byte) (n : BitIndex) : bitOf (v ||| 1) n = (decide (n = 0) || bitOf v n) := by
  have hone : bitOf 1 n = decide (n = 0) := bitOf_bitMask 0 n
  rw [Bool.or_comm, ← hone]
  exact BitVec.getLsbD_or

/-! ## The obligations -/

/-- Settles O41: the two bytes of the address and then PSR are read, each above the one before. -/
theorem rtiPopsAddressAndPsr : Obligations.RtiPopsAddressAndPsr := by
  intro s lo hi p k m used hlo hhi hp
  have haddr := readWord_of_readsAs hlo hhi
  have hpsr : readByte (s.sp + 2) { s with freeCount := m } = .ok (p, { s with freeCount := used }) :=
    readByte_of_readsAs (s := { s with freeCount := m }) hp
  have hreturn : returnFromInterrupt s = .ok _ := returnFromInterrupt_eq_ok.2 ⟨_, p, _, _, haddr, hpsr, rfl⟩
  exact ⟨encodedAs_of_encode rfl, rfl, _, finish_eq_next.2 hreturn, rfl, rfl, rfl,
    (returnFromInterrupt_within hreturn).frame rfl, rfl⟩

/-- Settles O39: an accepted INT is its entry sequence. -/
theorem acceptedIntEntersItsHandler : Obligations.AcceptedIntEntersItsHandler := by
  intro n s lo hi used haccepted hpossible
  obtain ⟨t, hentry, hentered⟩ := takeInterrupt_enters hpossible
  exact ⟨encodedAs_of_index 21 rfl, rfl, t,
    execInt_eq_next.2 (.inl ⟨State.accepts_iff.2 haccepted, hentry⟩), hentered⟩

/-- Settles O42: on plain memory the three bytes the entry wrote are the three bytes RTI reads, so the saved PSR comes
back and the flag the entry cleared with it. -/
theorem rtiUndoesInt : Obligations.RtiUndoesInt := by
  intro n s lo hi used haccepts hkPsr hkHi hkLo hpossible
  obtain ⟨_, _, t, hint, hpc, hsp, _, hwrotePsr, hwroteHi, hwroteLo, hentered, _⟩ :=
    acceptedIntEntersItsHandler n s lo hi used (State.accepts_iff.1 haccepts) hpossible
  have hcfg : t.cfg = s.cfg := hentered.cfg_eq
  have hsp1 : t.sp + 1 = s.sp - 2 := by rw [hsp]; bv_omega
  have hsp2 : t.sp + 2 = s.sp - 1 := by rw [hsp]; bv_omega
  have hsp3 : t.sp + 3 = s.sp := by rw [hsp]; bv_omega
  obtain ⟨_, _, u, hrti, hupc, hupsr, husp, hreturned, _⟩ :=
    rtiPopsAddressAndPsr t (lo8 s.intReturn) (hi8 s.intReturn) s.psr t.freeCount t.freeCount t.freeCount
      (hsp ▸ hwroteLo.readsAs_of_plain hcfg hkLo _) (hsp1 ▸ hwroteHi.readsAs_of_plain hcfg hkHi _)
      (hsp2 ▸ hwrotePsr.readsAs_of_plain hcfg hkPsr _)
  exact ⟨t, hint, hpc, u, hrti, hupc.trans (word16_hi8_lo8 _), hupsr, husp.trans hsp3,
    (hentered.trans hreturned).of_psr_eq hupsr⟩

/-- Settles O40: an INT that is not accepted only advances the program counter. -/
theorem refusedIntDoesNothing : Obligations.RefusedIntDoesNothing := by
  intro n s hrefused
  have haccepts : s.accepts n = false := Bool.eq_false_iff.2 (mt State.accepts_iff.1 hrefused)
  exact ⟨_, execInt_eq_next.2 (.inr ⟨haccepts, rfl⟩), rfl, Within.refl.advance.onlyRegsAndFlags⟩

/-- Settles O21: the pair holds the product of the two bytes as they were, which fits it. -/
theorem mulWritesTheExactProduct : Obligations.MulWritesTheExactProduct := by
  intro n s
  have hproduct := product16_toNat (s.reg n) (s.reg .r0)
  refine ⟨encodedAs_of_register 22 rfl, rfl, _, rfl, ?pair, ?zero, rfl, ?others⟩
  case pair =>
    rw [← hproduct]
    exact congrArg BitVec.toNat (State.pair_setPair s .p0 _)
  case zero =>
    rw [State.flag_advance, State.flag_setFlag, if_pos rfl, ← hproduct]
    exact decide_eq_decide.2 BitVec.toNat_inj.symm
  case others =>
    exact ((Within.refl.setPair (by simp [evenReg]) (by simp [oddReg])).setFlag (by simp)).advance.onlyRegsAndFlags

/-- Settles O31: the core's option picks what RSP writes to STACK, and nothing else is written. -/
theorem rspSetsTheStackPointer : Obligations.RspSetsTheStackPointer := by
  intro s
  refine ⟨encodedAs_of_encode rfl, rfl, _, rfl, fun hallowed => ?_, fun hfixed => ?_, rfl, ?others, rfl⟩
  · simp [hallowed, State.pair, evenReg, oddReg]
  · simp [hfixed, stackDefault]
  case others => exact (Within.refl (w := ⟨[], [], [], true, false⟩)).setSp.advance.frame rfl

/-- Settles O35: JMP writes the program counter alone, and so does BRK. -/
theorem jmpJumpsAndBrkDoesNothing : Obligations.JmpJumpsAndBrkDoesNothing :=
  fun _ => ⟨fun _ => ⟨encodedAs_of_encode rfl, rfl, _, rfl, rfl, Within.refl.setPc.onlyRegsAndFlags⟩,
    encodedAs_of_encode rfl, rfl, _, rfl, rfl, Within.refl.advance.onlyRegsAndFlags⟩

/-- Settles O36: the push of the return address answers where its two addresses can be written. -/
theorem jsrPushesTheReturnAddress : Obligations.JsrPushesTheReturnAddress := by
  intro addr s hwHi hwLo
  have hanswers : stopOf (pushWord (s.pc + 3) s) = none :=
    (stopOf_pushWord _ _).trans (Option.or_eq_none_iff.2 ⟨hwHi, hwLo⟩)
  obtain ⟨s1, hpush⟩ := stopOf_eq_none.1 hanswers
  obtain ⟨hwroteHi, hwroteLo⟩ := pushWord_wrote hpush
  have hsp : s1.sp = s.sp - 2 := pushWord_sp hpush
  have hfree : s1.freeCount = s.freeCount := by rw [pushWord_frame hpush]
  have pushed : Within ⟨[], [], [s.sp - 1, s.sp - 2], true, false⟩ s s1 :=
    Within.refl.pushWord hpush rfl (by simp) (by simp)
  exact ⟨encodedAs_of_encode rfl, rfl, _, execJsr_eq_next.2 ⟨s1, hpush, rfl⟩, rfl, hsp, hwroteHi, hwroteLo,
    pushed.setPc.frame rfl, hfree⟩

/-- Settles O37: the address is read at STACK, its low byte first. -/
theorem rtsPopsTheProgramCounter : Obligations.RtsPopsTheProgramCounter := by
  intro s lo hi k used hlo hhi
  have hread := readWord_of_readsAs hlo hhi
  have popped : Within ⟨[], [], [], true, false⟩ s { s with freeCount := used } := Within.refl.readWord hread
  exact ⟨encodedAs_of_encode rfl, rfl, _, execRts_eq_next.2 ⟨_, _, hread, rfl⟩, rfl, rfl,
    popped.setSp.setPc.frame rfl, rfl⟩

/-- Settles O43: SMSK writes the mask register with bit 0 forced, and the program counter. -/
theorem smskWritesTheMask : Obligations.SmskWritesTheMask := by
  intro s
  have written : Within ⟨[], [], [], false, true⟩ s ((s.setImr (s.reg .r0)).advance 1) := Within.refl.setImr.advance
  exact ⟨encodedAs_of_encode rfl, rfl, _, rfl, bitOf_or_one (s.reg .r0), rfl, written.regs, written.flags,
    written.memory, written.inputs, written.stack rfl, rfl⟩

/-- Settles O44: R0 takes the mask register, which is never zero where its bit 0 is 1. -/
theorem gmskReadsTheMask : Obligations.GmskReadsTheMask := by
  intro s
  refine ⟨encodedAs_of_encode rfl, rfl, _, rfl, ?r0, ?negative, ?zero, rfl, ?others, ?nonzero⟩
  case r0 => simp
  case negative => simp [nBit, zBit]
  case zero => simp
  case others => exact (((Within.refl.setReg (by simp)).setFlag (by simp)).setFlag (by simp)).advance.onlyRegsAndFlags
  case nonzero =>
    rintro ⟨_, _, hbit⟩ hzero
    have himr : s.imr = 0 := by simpa using hzero
    rw [himr] at hbit
    exact absurd hbit (by decide)

end Sys2Proof.Machine
end

section
/-! PROOFS. Register pairs, and loads and stores (43_pair_load_store.md). -/

namespace Sys2Proof.Machine

/-! ## Encodings -/

/-- Rn stands in the low three bits of the first byte, the other operands in the bytes after it (R81, R82). -/
theorem encodedAs_of_register_append {i : Instr} (o : BitVec 5) {n : Reg} {rest : List Byte}
    (hencode : encode i = firstByte o (regBits n) :: rest) (hwf : i.wellFormed = true := by rfl) :
    EncodedAs i ((firstByte o 0 + n.number) :: rest) :=
  setWidth_regBits n ▸ encodedAs_of_field_append hwf hencode

theorem setWidth_pairAutoBits (e : Pair) (a : Bool) : (pairAutoBits e a).setWidth 8 = e.number + autoNumber a := by
  cases e <;> cases a <;> rfl

/-- The pair and A stand in the low three bits of the first byte (R84). -/
theorem encodedAs_of_pair {i : Instr} (o : BitVec 5) {e : Pair} {a : Bool} {rest : List Byte}
    (hencode : encode i = firstByte o (pairAutoBits e a) :: rest) (hwf : i.wellFormed = true := by rfl) :
    EncodedAs i ((firstByte o 0 + e.number + autoNumber a) :: rest) := by
  rw [BitVec.add_assoc, ← setWidth_pairAutoBits]
  exact encodedAs_of_field_append hwf hencode

/-! ## Register pairs -/

/-- UPP keeps the low 16 bits of a sum of 17 bits (R190). -/
theorem setWidth_succ_toNat (v : Addr) : ((v.setWidth 17 + 1).setWidth 16).toNat = (v.toNat + 1) % 65536 := by
  simp only [BitVec.toNat_setWidth, BitVec.toNat_add, BitVec.ofNat_eq_ofNat, BitVec.toNat_ofNat]
  omega

/-- The carry out of bit 15 of an increment is set for 0xFFFF alone (R190). -/
theorem succ_carry (v : Addr) : (v.setWidth 17 + 1).getLsbD 16 = decide (v = 0xFFFF) := by
  have hcarry := (BitVec.msb_eq_getLsbD_last (v.setWidth 17 + 1)).symm.trans (BitVec.msb_eq_decide _)
  refine hcarry.trans (decide_eq_decide.2 ?_)
  bv_omega

theorem State.pair_bumpPair (s : State) (e : Pair) (a : Bool) : (s.bumpPair e a).pair e = s.pair e + bit16 a :=
  State.pair_setPair s e _

/-- R0 is a half of the pair R1:R0 and of no other. -/
theorem r0_not_in_pair {e : Pair} (he : e ≠ .p0) : .r0 ≠ oddReg e ∧ .r0 ≠ evenReg e := by
  cases e with
  | p0 => exact absurd rfl he
  | p2 | p4 | p6 => exact ⟨nofun, nofun⟩

/-- Writing R0 changes the low byte of R1:R0 and no other pair (R21, D11). -/
theorem State.pair_setReg_r0 (s : State) (e : Pair) (v : Byte) :
    (s.setReg .r0 v).pair e = if e = .p0 then word16 (s.reg .r1) v else s.pair e := by
  cases e <;> rfl

/-- The address of STO and LDO wraps at 64K (R194, R198, D4). -/
theorem State.offsetAddr_toNat (s : State) (e : Pair) (o : Byte) :
    (s.offsetAddr e o).toNat = ((s.pair e).toNat + o.toNat) % 65536 := by
  have hwide : (zeroExtend16 o).toNat = o.toNat := BitVec.toNat_setWidth_of_le (by decide)
  rw [State.offsetAddr, BitVec.toNat_add, hwide]

/-! ## Stores -/

/-- A write that can be made leaves its byte at its address. -/
theorem writeByte_of_writable {a : Addr} (v : Byte) {s : State} (h : Writable s a) :
    ∃ t, writeByte a v s = .ok t ∧ Wrote a v s t := by
  obtain ⟨t, hwrite⟩ := stopOf_eq_none.1 ((stopOf_writeByte a v s).trans h)
  exact ⟨t, hwrite, writeByte_byteAt hwrite a, by simp [writeByte_modified hwrite]⟩

/-- R193, R194, R199: R0 as it was goes to the address, and then A is added to the pair as it was. -/
theorem nextWith_storeIndexed {i : Instr} {ea : Addr} {e : Pair} {a : Bool} {len : Addr} {s : State}
    (hexec : exec i s = finish (storeIndexed ea e a len s)) (ha : a = true → s.cfg.autoIncrement = true)
    (hw : Writable s ea) :
    NextWith (exec i s) fun t =>
      Wrote ea (s.reg .r0) s t ∧ t.pair e = s.pair e + (if a then 1 else 0) ∧ MovedOn len s t ∧
        Frame [evenReg e, oddReg e] [] [ea] s t ∧ t.sp = s.sp ∧ t.freeCount = s.freeCount := by
  obtain ⟨s1, hwrite, hwrote⟩ := writeByte_of_writable (s.reg .r0) hw
  have stored : Within ⟨[evenReg e, oddReg e], [], [ea], false, false⟩ s s1 :=
    Within.refl.writeByte hwrite (List.mem_singleton_self _)
  have hkept := writeByte_frame hwrite
  have hpair : s1.pair e = s.pair e := by rw [hkept]; rfl
  have hpc : s1.pc = s.pc := by rw [hkept]
  have hfree : s1.freeCount = s.freeCount := by rw [hkept]
  refine ⟨_, hexec.trans (finish_eq_next.2 (storeIndexed_eq_ok.2 ⟨ha, s1, hwrite, rfl⟩)), hwrote, ?pair,
    congrArg (· + len) hpc, (stored.bumpPair (by simp) (by simp)).advance.frame rfl, stored.stack rfl, hfree⟩
  case pair => exact (State.pair_bumpPair s1 e a).trans (congrArg (· + bit16 a) hpair)

/-! ## Loads -/

/-- N and Z are read off PSR. -/
theorem SignAndZeroOf.of_psr_eq {v : Byte} {s t : State} (h : SignAndZeroOf v s) (hpsr : t.psr = s.psr) :
    SignAndZeroOf v t := by
  simpa only [SignAndZeroOf, State.flag, hpsr] using h

/-- R197 to R199, D11: R0 and N, Z are loaded, and then A is added to the pair as the load left it. -/
theorem nextWith_loadIndexed {i : Instr} {ea : Addr} {e : Pair} {a : Bool} {len : Addr} {s : State} {v : Byte}
    {used : Nat} (hexec : exec i s = finish (loadIndexed ea e a len s))
    (ha : a = true → s.cfg.autoIncrement = true) (hreads : ReadsAs s (s.byteAt ea) s.freeCount ea v used) :
    NextWith (exec i s) fun t =>
      t.pair e = (if e = .p0 then word16 (s.reg .r1) v else s.pair e) + (if a then 1 else 0) ∧
        (e ≠ .p0 → t.reg .r0 = v) ∧ SignAndZeroOf v t ∧ MovedOn len s t ∧
        Frame [.r0, evenReg e, oddReg e] [nBit, zBit] [] s t ∧ t.sp = s.sp ∧ t.freeCount = used := by
  have hread := readByte_of_readsAs hreads
  have loaded : Within ⟨[.r0, evenReg e, oddReg e], [nBit, zBit], [], false, false⟩ s
      (({ s with freeCount := used }.setReg .r0 v).setNZ v) :=
    ((Within.refl.readByte hread).setReg (by simp)).setNZ (by simp) (by simp)
  refine ⟨_, hexec.trans (finish_eq_next.2 (loadIndexed_eq_ok.2 ⟨ha, v, _, hread, rfl⟩)), ?pair, fun he => ?r0,
    (setNZ_signAndZeroOf ({ s with freeCount := used }.setReg .r0 v) v).of_psr_eq rfl, rfl,
    (loaded.bumpPair (by simp) (by simp)).advance.frame rfl, rfl, rfl⟩
  case pair => exact (State.pair_bumpPair _ e a).trans (congrArg (· + bit16 a) (State.pair_setReg_r0 s e v))
  case r0 =>
    obtain ⟨hodd, heven⟩ := r0_not_in_pair he
    simp [hodd, heven]

/-! ## The option of auto-increment -/

/-- R200 (D10): where the option is off, a form with A = 1 is refused before its access. -/
theorem finish_checkAutoIncrement_off {s : State} (h : s.cfg.autoIncrement = false) (f : Unit → Except Halt State) :
    finish (checkAutoIncrement true s >>= f) = .refused .autoincrementNotImplemented := by
  have hstop : stopOf (checkAutoIncrement true s) = some (.refusal .autoincrementNotImplemented) := by
    simp [checkAutoIncrement, h, stopOf]
  exact finish_bind_of_stopOf hstop

/-! ## The obligations -/

/-- Settles O22: the pair is the low 16 bits of the sum, and C its bit 16. -/
theorem uppIncrementsThePair : Obligations.UppIncrementsThePair := by
  intro e s
  have hencoded : EncodedAs (.upp e) [0xC0 + e.number] :=
    BitVec.add_zero (0xC0 + e.number) ▸ encodedAs_of_pair (a := false) 24 rfl
  refine ⟨hencoded, rfl, _, rfl, ?pair, ?carry, rfl, ?others⟩
  case pair => exact (congrArg BitVec.toNat (State.pair_setPair s e _)).trans (setWidth_succ_toNat _)
  case carry =>
    rw [State.flag_advance, State.flag_setFlag, if_pos rfl]
    exact succ_carry _
  case others => exact ((Within.refl.setPair (by simp) (by simp)).setFlag (by simp)).advance.onlyRegsAndFlags

/-- Settles O45: the write answers where its address can be written. -/
theorem staStoresAtItsAddress : Obligations.StaStoresAtItsAddress := by
  intro n addr s hw
  obtain ⟨s1, hwrite, hwrote⟩ := writeByte_of_writable (s.reg n) hw
  have stored : Within ⟨[], [], [addr], false, false⟩ s s1 :=
    Within.refl.writeByte hwrite (List.mem_singleton_self _)
  have hpc : s1.pc = s.pc := by rw [writeByte_frame hwrite]
  have hfree : s1.freeCount = s.freeCount := by rw [writeByte_frame hwrite]
  exact ⟨encodedAs_of_register_append 25 rfl, rfl, _, execSta_eq_next.2 ⟨s1, hwrite, rfl⟩, hwrote,
    congrArg (· + 3) hpc, stored.advance.frame rfl, stored.stack rfl, hfree⟩

/-- Settles O46: STX and STO are one indexed store at two addresses. -/
theorem indexedStoresWriteR0 : Obligations.IndexedStoresWriteR0 := by
  intro e a o s ha
  exact ⟨fun hw => ⟨encodedAs_of_pair 26 rfl, rfl, rfl, nextWith_storeIndexed rfl ha hw⟩,
    fun hw => ⟨encodedAs_of_pair 27 rfl, rfl, s.offsetAddr_toNat e o, nextWith_storeIndexed rfl ha hw⟩⟩

/-- Settles O47: the immediate goes to the register, and N and Z are its own. -/
theorem ldiLoadsItsImmediate : Obligations.LdiLoadsItsImmediate := by
  intro n imm s
  exact ⟨encodedAs_of_register_append 28 rfl, rfl, _, rfl, by simp, setNZ_signAndZeroOf (s.setReg n imm) imm, rfl,
    ((Within.refl.setReg (by simp)).setNZ (by simp) (by simp)).advance.onlyRegsAndFlags⟩

/-- Settles O48: the byte read at the address goes to the register, and N and Z are its own. -/
theorem ldaLoadsFromItsAddress : Obligations.LdaLoadsFromItsAddress := by
  intro n addr s v used hreads
  have hread := readByte_of_readsAs hreads
  have answered : Within ⟨[n], [nBit, zBit], [], false, false⟩ s { s with freeCount := used } :=
    Within.refl.readByte hread
  exact ⟨encodedAs_of_register_append 29 rfl, rfl, _, execLda_eq_next.2 ⟨v, _, hread, rfl⟩, by simp,
    (setNZ_signAndZeroOf ({ s with freeCount := used }.setReg n v) v).of_psr_eq rfl, rfl,
    ((answered.setReg (by simp)).setNZ (by simp) (by simp)).advance.frame rfl, rfl, rfl⟩

/-- Settles O49: LDX and LDO are one indexed load from two addresses. -/
theorem indexedLoadsReadIntoR0 : Obligations.IndexedLoadsReadIntoR0 := by
  intro e a o s v used ha
  exact ⟨fun hreads => ⟨encodedAs_of_pair 30 rfl, rfl, rfl, nextWith_loadIndexed rfl ha hreads⟩,
    fun hreads => ⟨encodedAs_of_pair 31 rfl, rfl, s.offsetAddr_toNat e o, nextWith_loadIndexed rfl ha hreads⟩⟩

/-- Settles O50: all four forms ask for the option first. -/
theorem autoIncrementFormsNeedTheOption : Obligations.AutoIncrementFormsNeedTheOption := by
  intro e o s hoff
  have refused := finish_checkAutoIncrement_off hoff
  exact ⟨refused _, refused _, refused _, refused _⟩

end Sys2Proof.Machine
end

section
/-! PROOFS. The pseudo-mnemonics of the assembler (44_pseudo_mnemonics.md). -/

namespace Sys2Proof.Machine

/-! ## Two instructions in a row in memory -/

/-- What lies in memory is about the address and not about the program counter. -/
theorem bytesAt_setPc {s : State} {p a : Addr} {bytes : List Byte} :
    BytesAt (s.setPc p) a bytes ↔ BytesAt s a bytes := by
  induction bytes generalizing a with
  | nil => exact Iff.rfl
  | cons v rest ih => simp only [BytesAt, State.kindAt_setPc, State.byteAt_setPc, State.modified_setPc, ih]

/-- The second of two lists of bytes lies where the first ends. -/
theorem BytesAt.append_right {s : State} {a : Addr} {front rest : List Byte} (h : BytesAt s a (front ++ rest)) :
    BytesAt s (a + BitVec.ofNat 16 front.length) rest := by
  induction front generalizing a with
  | nil => exact (BitVec.add_zero a).symm ▸ h
  | cons v front ih =>
    have hnext : a + 1 + BitVec.ofNat 16 front.length = a + BitVec.ofNat 16 (front.length + 1) := by
      rw [BitVec.add_assoc, BitVec.ofNat_add, BitVec.add_comm (BitVec.ofNat 16 front.length)]
      rfl
    exact hnext ▸ ih h.fetchByte_head.2

/-- Without external requests, a step runs the instruction whose bytes come first at the program counter. -/
theorem step_of_bytesAt_encode {s : State} {i : Instr} {rest : List Byte} (hquiet : s.cfg.extInterrupts = false)
    (hi : i.isAlias = false) (hbytes : BytesAt s s.pc (encode i ++ rest)) : step s = exec i s := by
  have hfetch : fetch s = .ok (i, s) := fetch_of_bytesAt hbytes (decode_encode_append_of_isAlias_eq_false hi rest)
  exact step_of_fetch (takenRequest_off hquiet) ((pollRequests_off hquiet).symm ▸ hfetch)

/-! ## Conditional branches -/

/-- A conditional branch is one relative branch on its bit (R230 to R235). -/
theorem conditionalBranch_eq_some {i : Instr} {n : BitIndex} {want : Bool} {o : Byte}
    (h : conditionalBranch i = some (n, want, o)) :
    clocks i = .always 3 ∧ ∀ s, exec i s = .next (branchIf (s.flag n == want) o s) := by
  cases i with
  | brz _ | brlz _ | brc _ =>
    cases h
    exact ⟨rfl, fun s => by rw [beq_true]; rfl⟩
  | brnz _ | brgez _ | brnc _ =>
    cases h
    exact ⟨rfl, fun s => by rw [beq_false]; rfl⟩
  | _ => cases h

/-! ## Conditional jumps -/

/-- The branch that skips the jump behind it unless bit n has the wanted value (R243). -/
def skipBranch (n : BitIndex) (want : Bool) : Instr := if want then .br0 n 5 else .br1 n 5

theorem isAlias_skipBranch (n : BitIndex) (want : Bool) : (skipBranch n want).isAlias = false := by
  cases want <;> rfl

theorem length_encode_skipBranch (n : BitIndex) (want : Bool) : (encode (skipBranch n want)).length = 2 := by
  cases want <;> rfl

theorem exec_skipBranch (n : BitIndex) (want : Bool) (s : State) :
    exec (skipBranch n want) s = .next (branchIf (s.flag n != want) 5 s) := by
  cases want with
  | true => rw [Bool.bne_true]; rfl
  | false => rw [Bool.bne_false]; rfl

/-- A conditional jump stands for a branch around a jump, and its net effect is the jump or the move past it (R236 to
R241, R243). -/
theorem conditionalJump_eq_some {i : Instr} {n : BitIndex} {want : Bool} {addr : Addr}
    (h : conditionalJump i = some (n, want, addr)) :
    clocks i = .skippedOrMade 3 6 ∧ expansion i = [skipBranch n want, .jmp addr] ∧
      ∀ s, exec i s = .next (jumpIf (s.flag n == want) addr s) := by
  cases i with
  | jmpz _ | jmplz _ | jmpc _ =>
    cases h
    exact ⟨rfl, rfl, fun s => by rw [beq_true]; rfl⟩
  | jmpnz _ | jmpgez _ | jmpnc _ =>
    cases h
    exact ⟨rfl, rfl, fun s => by rw [beq_false]; rfl⟩
  | _ => cases h

/-- A conditional jump writes the program counter, and nothing else. -/
theorem jumpIf_eq_setPc (made : Bool) (addr : Addr) (s : State) :
    jumpIf made addr s = s.setPc (if made = true then addr else s.pc + 5) := by
  cases made <;> rfl

theorem nextWith_jumpIf {i : Instr} {s : State} {made : Bool} {addr : Addr}
    (hexec : exec i s = .next (jumpIf made addr s)) :
    NextWith (exec i s) fun t =>
      t.pc = (if made = true then addr else s.pc + 5) ∧ OnlyRegsAndFlags [] [] s t := by
  rw [jumpIf_eq_setPc] at hexec
  exact ⟨_, hexec, rfl, Within.refl.setPc.onlyRegsAndFlags⟩

/-- The bytes of a conditional jump are those of its branch and then those of its jump. -/
theorem encode_conditionalJump {i : Instr} {n : BitIndex} {want : Bool} {addr : Addr}
    (h : conditionalJump i = some (n, want, addr)) :
    encode i = encode (skipBranch n want) ++ encode (.jmp addr) := by
  obtain ⟨_, hexpansion, _⟩ := conditionalJump_eq_some h
  rw [encode_eq_expansion, hexpansion, List.flatMap_cons, List.flatMap_singleton]

/-! ## The obligations -/

/-- Settles O56: the first step runs the skipping branch, which ends where the net effect does unless the flag has the
wanted value; then it goes on to the jump, whose three bytes the second step runs. -/
theorem conditionalJumpIsItsTwoSteps : Obligations.ConditionalJumpIsItsTwoSteps := by
  intro i n want addr s hjump hquiet hbytes
  obtain ⟨_, _, hexec⟩ := conditionalJump_eq_some hjump
  rw [encode_conditionalJump hjump] at hbytes
  have hfirst : step s = .next (branchIf (s.flag n != want) 5 s) :=
    (step_of_bytesAt_encode hquiet (isAlias_skipBranch n want) hbytes).trans (exec_skipBranch n want s)
  rw [hfirst, hexec]
  constructor
  · intro hne
    rw [bne_iff_ne.2 hne, beq_eq_false_iff_ne.2 hne]
    rfl
  · intro heq
    have hstay : branchIf (s.flag n != want) 5 s = s.setPc (s.pc + 2) := by rw [heq, bne_self_eq_false]; rfl
    have hrest : BytesAt s (s.pc + 2) (encode (.jmp addr)) := by
      have hafter := hbytes.append_right
      rwa [length_encode_skipBranch] at hafter
    have hsecond : step (s.setPc (s.pc + 2)) = exec (.jmp addr) (s.setPc (s.pc + 2)) :=
      step_of_bytesAt_encode (rest := []) hquiet rfl (by simpa using bytesAt_setPc.2 hrest)
    refine ⟨_, rfl, by rw [hstay]; rfl, ?_⟩
    rw [hstay, hsecond, beq_iff_eq.2 heq]
    rfl

/-- Settles O53: an instruction that is no pseudo-mnemonic stands for itself, a pseudo-mnemonic of one instruction runs
that one's meaning, and a conditional jump stands for two. -/
theorem aliasActsAsItsInstruction : Obligations.AliasActsAsItsInstruction := by
  intro i j s h
  cases hpseudo : i.isAlias with
  | false =>
    rw [expansion_of_isAlias_eq_false hpseudo] at h
    rw [List.singleton_inj.1 h]
  | true =>
    cases i with
    | sti | cli | stz | clz | stn | cln | stc | clc | nop | clr => cases h; rfl
    | brz _ | brnz _ | brlz _ | brgez _ | brc _ | brnc _ => cases h; rfl
    | jmpz _ | jmpnz _ | jmplz _ | jmpgez _ | jmpc _ | jmpnc _ => cases h
    | _ => cases hpseudo

/-- Settles O54: eight of them write one bit of PSR, NOP only moves on, and CLR stores a byte combined with itself,
which is 0. -/
theorem oneBytePseudoMnemonics : Obligations.OneBytePseudoMnemonics := by
  intro s
  refine ⟨?flags, ⟨rfl, rfl, _, rfl, rfl, Within.refl.advance.onlyRegsAndFlags⟩, rfl, rfl, ?clr⟩
  case flags =>
    simp only [List.forall_mem_cons]
    refine ⟨?_, ?_, ?_, ?_, ?_, ?_, ?_, ?_, nofun⟩
    all_goals exact ⟨rfl, rfl, nextWith_writePsrBit rfl⟩
  case clr =>
    have hexec : exec .clr s = .next (storeByte .r0 (s.reg .r0 ^^^ s.reg .r0) s) := rfl
    rw [BitVec.xor_self] at hexec
    exact (nextWith_storeByte hexec).mono fun t ⟨hreg, ⟨hN, hZ⟩, hrest⟩ => ⟨hreg, hN, hZ, hrest⟩

/-- Settles O55: a conditional branch or jump writes the program counter by its tested bit, and nothing else. -/
theorem conditionalPseudoMnemonics : Obligations.ConditionalPseudoMnemonics := by
  intro i n want s
  refine ⟨fun o hbranch => ?branch, fun addr hjump => ?jump⟩
  case branch =>
    obtain ⟨hclocks, hexec⟩ := conditionalBranch_eq_some hbranch
    exact ⟨hclocks, by simpa only [beq_iff_eq] using nextWith_branchIf (hexec s)⟩
  case jump =>
    obtain ⟨hclocks, _, hexec⟩ := conditionalJump_eq_some hjump
    exact ⟨hclocks, by simpa only [beq_iff_eq] using nextWith_jumpIf (hexec s)⟩

end Sys2Proof.Machine
end

section
/-! PROOFS. External interrupt requests (60_exceptions.md). -/

namespace Sys2Proof.Machine

/-! ## Priority -/

/-- The search in priority order finds the lowest number that qualifies (R258, D13). -/
theorem find?_priorityOrder_eq_some {p : BitIndex → Bool} {n : BitIndex} :
    priorityOrder.find? p = some n ↔ p n = true ∧ ∀ m < n, p m = false := by
  have horder : priorityOrder = List.finRange 8 := by decide
  rw [horder, ← Fin.find?_eq_find?_finRange, Fin.find?_eq_some_iff]

/-! ## The request of a step -/

/-- A requested number is no candidate for an entry exactly where R252 does not accept it. -/
theorem requested_and_accepts_eq_false {s : State} {set : Byte} {m : BitIndex} :
    (bitOf set m && s.accepts m) = false ↔
      (bitOf set m = true → ¬(m = 0 ∨ (s.flag iBit = true ∧ bitOf s.imr m = true))) := by
  rw [Bool.and_eq_false_imp, ← State.accepts_iff, Bool.not_eq_true]

section
variable {s : State} {set : Byte} {later : List Byte} (hext : s.cfg.extInterrupts = true)
  (hreq : s.requests = set :: later)
include hext hreq

theorem takenRequest_of_cons :
    s.takenRequest = priorityOrder.find? fun n => bitOf set n && s.accepts n := by
  simp only [State.takenRequest, hext, hreq]

/-- The request taken is the lowest of the accepted ones. -/
theorem takenRequest_eq_some {n : BitIndex} :
    s.takenRequest = some n ↔
      (bitOf set n = true ∧ s.accepts n = true) ∧ ∀ m < n, (bitOf set m && s.accepts m) = false := by
  rw [takenRequest_of_cons hext hreq, find?_priorityOrder_eq_some, Bool.and_eq_true]

/-- No request is taken where none is accepted. -/
theorem takenRequest_eq_none_of_cons (hnone : ∀ m : BitIndex, (bitOf set m && s.accepts m) = false) :
    s.takenRequest = none := by
  rw [takenRequest_of_cons hext hreq]
  exact List.find?_eq_none.2 fun m _ => Bool.eq_false_iff.1 (hnone m)

theorem pollRequests_of_cons : s.pollRequests = { s with requests := later } := by
  simp only [State.pollRequests, hext, hreq, if_true, List.tail_cons]

end

/-- After the last answer of the oracle nothing is requested (R257). -/
theorem takenRequest_of_nil {s : State} (hreq : s.requests = []) : s.takenRequest = none := by
  cases hext : s.cfg.extInterrupts with
  | false => exact takenRequest_off hext
  | true => simp only [State.takenRequest, hext, hreq]

theorem pollRequests_of_nil {s : State} (hreq : s.requests = []) : s.pollRequests = s := by
  unfold State.pollRequests
  split
  · rw [hreq, List.tail_nil, ← hreq]
  · rfl

/-- A request that is taken stands in place of the instruction (R257). -/
theorem step_of_takenRequest {s : State} {n : BitIndex} (h : s.takenRequest = some n) :
    step s = finish (takeInterrupt n s.pc s.pollRequests) := by
  simp only [step, h]

/-! ## The obligation -/

/-- Settles O12: the search finds the lowest accepted number, and its entry is that of an INT from the state with the
answer used up; where the search finds none, the step is the fetched instruction's. -/
theorem lowestAcceptedRequestIsTaken : Obligations.LowestAcceptedRequestIsTaken := by
  refine ⟨?taken, ?noneAccepted, ?noAnswer, fun s hoff => ⟨takenRequest_off hoff, pollRequests_off hoff⟩⟩
  case taken =>
    intro s n set later lo hi used hext hreq hbit hacc hlower hpossible
    have hreq' : s.takenRequest = some n := (takenRequest_eq_some hext hreq).2
      ⟨⟨hbit, State.accepts_iff.2 hacc⟩, fun m hm => requested_and_accepts_eq_false.2 (hlower m hm)⟩
    have hpossible' : EntryPossible { s with requests := later } n s.pc lo hi used := hpossible
    obtain ⟨t, hentry, hentered⟩ := takeInterrupt_enters hpossible'
    refine ⟨t, ?_, hentered⟩
    rw [step_of_takenRequest hreq', pollRequests_of_cons hext hreq]
    exact finish_eq_next.2 hentry
  case noneAccepted =>
    intro s set later hext hreq hnone
    have hreq' : s.takenRequest = none :=
      takenRequest_eq_none_of_cons hext hreq fun m => requested_and_accepts_eq_false.2 (hnone m)
    have hpoll := pollRequests_of_cons hext hreq
    exact ⟨hreq', hpoll, fun i s1 hfetch => step_of_fetch hreq' (hpoll.symm ▸ hfetch)⟩
  case noAnswer =>
    intro s _ hreq
    have hreq' := takenRequest_of_nil hreq
    have hpoll := pollRequests_of_nil hreq
    exact ⟨hreq', hpoll, fun i s1 hfetch => step_of_fetch hreq' (hpoll.symm ▸ hfetch)⟩

end Sys2Proof.Machine
end

section
/-! PROOFS. What reset leaves (70_reset_and_hazards.md). -/

namespace Sys2Proof.Machine

/-! ## What a memory image holds

The loader stores the cells in the order of the image, so the last cell decides at its own address, and every fact about
an image goes by induction from its end. -/

/-- Memory after an image and one more cell: the cell's byte at its address, the image's elsewhere. -/
theorem Memory.lookup_ofImage_concat (image : List Host.Cell) (c : Host.Cell) {a : Nat} (ha : a < addressSpace) :
    Memory.lookup (Memory.ofImage (image ++ [c])) a =
      if a = c.1 then some c.2 else Memory.lookup (Memory.ofImage image) a := by
  have hload : Memory.ofImage (image ++ [c]) =
      if c.1 < addressSpace then Memory.insert (Memory.ofImage image) c.1 c.2 else Memory.ofImage image :=
    List.foldl_concat ..
  by_cases hc : c.1 < addressSpace
  · rw [hload, if_pos hc, Memory.lookup_insert]
  · have hne : a ≠ c.1 := by omega
    rw [hload, if_neg hc, if_neg hne]

/-- No byte stands at an address that the image does not list. -/
theorem Memory.lookup_ofImage_of_unlisted {image : List Host.Cell} {a : Nat} (ha : a < addressSpace)
    (h : ∀ c ∈ image, c.1 ≠ a) : Memory.lookup (Memory.ofImage image) a = none := by
  induction image using List.reverseRecOn with
  | nil => rfl
  | append_singleton front c ih =>
    rw [Memory.lookup_ofImage_concat front c ha, if_neg (h c (by simp)).symm]
    exact ih fun d hd => h d (List.mem_append_left _ hd)

/-- Where an image lists no address twice, the byte of each of its cells stands at the cell's address: no later cell
replaces it. -/
theorem Memory.lookup_ofImage_of_mem {image : List Host.Cell} {a : Nat} {v : Byte} (ha : a < addressSpace)
    (hdistinct : image.Pairwise (fun c d => c.1 ≠ d.1)) (hmem : (a, v) ∈ image) :
    Memory.lookup (Memory.ofImage image) a = some v := by
  induction image using List.reverseRecOn with
  | nil => cases hmem
  | append_singleton front c ih =>
    obtain ⟨hfront, -, hlast⟩ := List.pairwise_append.1 hdistinct
    rw [Memory.lookup_ofImage_concat front c ha]
    obtain hmem | hmem := List.mem_append.1 hmem
    · have hne : a ≠ c.1 := hlast (a, v) hmem c (List.mem_singleton_self c)
      rw [if_neg hne]
      exact ih hfront hmem
    · obtain rfl := List.mem_singleton.1 hmem
      exact if_pos rfl

/-! ## The obligation -/

/-- Settles O13: the stated values stand in the definition of reset; the mask register is `RESET_IMR` with bit 0 set, and
memory is the loaded image. -/
theorem resetLeavesTheStatedValues : Obligations.ResetLeavesTheStatedValues := by
  intro cfg image regs psr requests s
  have mask_zero : bitOf s.imr 0 = true := bitOf_or_one_zero cfg.resetImr
  have mask_others (n : BitIndex) (hn : n ≠ 0) : bitOf s.imr n = bitOf cfg.resetImr n :=
    (bitOf_or_one cfg.resetImr n).trans (by simp [hn])
  have listed (a : Addr) (v : Byte) (hdistinct : image.Pairwise (fun c d => c.1 ≠ d.1))
      (hmem : (a.toNat, v) ∈ image) : s.byteAt a = some v :=
    Memory.lookup_ofImage_of_mem (toNat_lt_addressSpace a) hdistinct hmem
  have unlisted (a : Addr) (h : ∀ c ∈ image, c.1 ≠ a.toNat) : s.byteAt a = none :=
    Memory.lookup_ofImage_of_unlisted (toNat_lt_addressSpace a) h
  exact ⟨rfl, mask_zero, mask_others, rfl, rfl, rfl, rfl, listed, unlisted, fun _ => rfl⟩

end Sys2Proof.Machine
end
